-- ==== Sys2Proof/Word.lean ====
section
/-! DEFINITION. The word types of the hardware: every value of the spec is an unsigned integer of a
stated width (rule R7). The operations on them (rotations, conversions, fields) stand in
Machine/Operands.lean. -/

namespace Sys2Proof

/-- A 32-bit word: `H`, `V`, `W`, `K` and the read port (rules R6, R8). -/
abbrev Word := BitVec 32

/-- A byte: `BUF` and the operand of WRB (rules R6, R18). -/
abbrev Byte := BitVec 8

/-- A command word on the command port (rules R51, R53). -/
abbrev CmdWord := BitVec 16

/-- A read selector on `rd_sel` (rules R51, R58). -/
abbrev ReadSel := BitVec 4

/-- A PHASE code as it stands in the register and in STATUS[19:16] (rules R20, R59). -/
abbrev PhaseCode := BitVec 4

end Sys2Proof
end

