-- ==== Sys2Proof/Syntax.lean ====
section
/-! DEFINITION. The operations of the hardware, one constructor per row of spec/opcode_table.json:
the four host commands and the illegal command (rules R54, R56), the host read (rule R58) and the
seven micro-operations of the engine (rules R59, R85). -/

namespace Sys2Proof

/-- One operation of the hardware. The micro-operations carry no operand: theirs are the registers
`IDX`, `NBUF` and so on (rule R59). -/
inductive Instr where
  /-- NOP, opcode 0x00 (rule R96). -/
  | nop
  /-- INIT, opcode 0x01 (rule R97). -/
  | init
  /-- WRB, opcode 0x02, with the message byte `cmd_word[15:8]` (rules R55, R98). -/
  | wrb (d : Byte)
  /-- FINAL, opcode 0x03 (rule R99). -/
  | final
  /-- An illegal command, opcode 0x04..0xFF, with the whole word (rules R56, R57, R100). -/
  | illegal (w : CmdWord)
  /-- RD, a host read through `rd_sel` (rules R58, R101). -/
  | rd (sel : ReadSel)
  /-- PAD, PHASE code 1 (rule R65). -/
  | pad
  /-- PAD2, PHASE code 2 (rule R66). -/
  | pad2
  /-- LOADW, PHASE code 3 (rule R72). -/
  | loadw
  /-- SCHED, PHASE code 4 (rule R73). -/
  | sched
  /-- WINIT, PHASE code 5 (rule R80). -/
  | winit
  /-- ROUND, PHASE code 6 (rule R81). -/
  | round
  /-- FOLD, PHASE code 7 (rule R82). -/
  | fold
  deriving DecidableEq, Repr

/-- The named values of the PHASE register (rule R20). Codes 9..15 have no name. -/
inductive Phase where
  | idle
  | pad
  | pad2
  | loadw
  | sched
  | winit
  | round
  | fold
  | done
  deriving DecidableEq, Repr

/-- What selects an operation: a word on the command port, a selector on the read port, or the code
in the PHASE register (the formats CMD16, RSEL and PHASE of the opcode table; rules R53, R58, R59). -/
inductive Encoded where
  | cmd16 (w : CmdWord)
  | rsel (s : ReadSel)
  | phase (p : PhaseCode)
  deriving DecidableEq, Repr

end Sys2Proof
end

