-- ==== Sys2Proof/WellFormed.lean ====
section
/-! DEFINITION. Which terms of `Instr` stand for an encoding. Only an illegal command can fail: its
word must carry an illegal opcode (rule R57); every other operand type holds exactly the values its
field can take. -/

namespace Sys2Proof

/-- The one check: an illegal command's bits 7:0 are 0x04..0xFF (rules R54, R57). -/
abbrev Instr.WellFormed : Instr → Prop
  | .illegal w => 4 ≤ (w.extractLsb' 0 8).toNat
  | .nop | .init | .wrb _ | .final | .rd _ => True
  | .pad | .pad2 | .loadw | .sched | .winit | .round | .fold => True

end Sys2Proof
end

