-- ==== Sys2Proof/Decode.lean ====
section
/-! DEFINITION. From the bits that select an operation to the operation, total on every input, and
the encoder back (rules R53 to R60, R20, R61). -/

namespace Sys2Proof

/-! ## The PHASE codes (rule R20) -/

/-- The code of a named phase (rule R20). -/
def Phase.code : Phase → PhaseCode
  | .idle => 0
  | .pad => 1
  | .pad2 => 2
  | .loadw => 3
  | .sched => 4
  | .winit => 5
  | .round => 6
  | .fold => 7
  | .done => 8

/-- The named phase of a code; codes 9..15 have none (rule R20). -/
def Phase.ofCode (c : PhaseCode) : Option Phase :=
  if c = 0 then some .idle
  else if c = 1 then some .pad
  else if c = 2 then some .pad2
  else if c = 3 then some .loadw
  else if c = 4 then some .sched
  else if c = 5 then some .winit
  else if c = 6 then some .round
  else if c = 7 then some .fold
  else if c = 8 then some .done
  else none

/-! ## The decoder -/

/-- The opcode field, bits 7:0 of a command word (rule R53). -/
def opField (w : CmdWord) : BitVec 8 := w.extractLsb' 0 8

/-- The operand field, bits 15:8 of a command word (rules R53, R55). -/
def dataField (w : CmdWord) : Byte := w.extractLsb' 8 8

/-- The command decoder, total on all 65536 words (rule R56). -/
def decodeCommand (w : CmdWord) : Instr :=
  if opField w = 0x00 then .nop
  else if opField w = 0x01 then .init
  else if opField w = 0x02 then .wrb (dataField w)
  else if opField w = 0x03 then .final
  else .illegal w

/-- Why bits select no operation. -/
inductive DecodeError where
  /-- PHASE is IDLE or DONE: no micro-operation, the engine is READY (rules R59, R85). -/
  | noMicroOperation
  /-- PHASE is 9..15, a code no rule writes (rules R20, R106). -/
  | unreachablePhase
  deriving DecidableEq, Repr

/-- The micro-operation a PHASE code selects (rules R59, R85). -/
def decodePhase (c : PhaseCode) : Except DecodeError Instr :=
  match Phase.ofCode c with
  | some .pad => .ok .pad
  | some .pad2 => .ok .pad2
  | some .loadw => .ok .loadw
  | some .sched => .ok .sched
  | some .winit => .ok .winit
  | some .round => .ok .round
  | some .fold => .ok .fold
  | some .idle => .error .noMicroOperation
  | some .done => .error .noMicroOperation
  | none => .error .unreachablePhase

/-- The decoder over the three formats of the opcode table. -/
def decode : Encoded → Except DecodeError Instr
  | .cmd16 w => .ok (decodeCommand w)
  | .rsel s => .ok (.rd s)
  | .phase p => decodePhase p

/-! ## The encoder (rules R54, R59, R61) -/

/-- A command word from its operand and opcode fields, `data << 8 | op` (rules R53, R61). -/
def commandWord (data : Byte) (op : BitVec 8) : CmdWord :=
  data.setWidth 16 <<< 8 ||| op.setWidth 16

/-- The word, selector or code of an operation; the ignored DATA bits of NOP, INIT and FINAL are
written 0, as the assembler writes them (rule R61). -/
def encode : Instr → Encoded
  | .nop => .cmd16 (commandWord 0x00 0x00)
  | .init => .cmd16 (commandWord 0x00 0x01)
  | .wrb d => .cmd16 (commandWord d 0x02)
  | .final => .cmd16 (commandWord 0x00 0x03)
  | .illegal w => .cmd16 w
  | .rd s => .rsel s
  | .pad => .phase Phase.pad.code
  | .pad2 => .phase Phase.pad2.code
  | .loadw => .phase Phase.loadw.code
  | .sched => .phase Phase.sched.code
  | .winit => .phase Phase.winit.code
  | .round => .phase Phase.round.code
  | .fold => .phase Phase.fold.code

/-! ## The opcode table's rows -/

/-- Whether bits satisfy the `match`/`mask` of an operation's row of the opcode table (rules R54,
R57, R58, R59). -/
def rowMatches : Instr → Encoded → Bool
  | .nop, .cmd16 w => w &&& 0x00FF == 0x0000
  | .init, .cmd16 w => w &&& 0x00FF == 0x0001
  | .wrb _, .cmd16 w => w &&& 0x00FF == 0x0002
  | .final, .cmd16 w => w &&& 0x00FF == 0x0003
  | .illegal _, .cmd16 w => (w &&& 0x00FF).toNat ≥ 4
  | .rd _, .rsel _ => true
  | .pad, .phase p => p &&& 0xF == 0x1
  | .pad2, .phase p => p &&& 0xF == 0x2
  | .loadw, .phase p => p &&& 0xF == 0x3
  | .sched, .phase p => p &&& 0xF == 0x4
  | .winit, .phase p => p &&& 0xF == 0x5
  | .round, .phase p => p &&& 0xF == 0x6
  | .fold, .phase p => p &&& 0xF == 0x7
  | _, _ => false

/-- The operation of a row's bits as the table numbers them. A row of 16 bits is a command word. A
row of 4 bits is a PHASE code or a read selector, and the table's bits alone do not say which:
codes 1..7 are read as the PHASE row they name, every other value as the RD row (assumption log 9).
The hardware itself never meets the question: the two stand in different registers. -/
def decodeTableWord (nbits w : Nat) : Option Instr :=
  if nbits = 16 then some (decodeCommand (BitVec.ofNat 16 w))
  else if nbits = 4 ∨ nbits = 8 then
    match decodePhase (BitVec.ofNat 4 w) with
    | .ok i => some i
    | .error _ => some (.rd (BitVec.ofNat 4 w))
  else none

end Sys2Proof
end

