-- ==== Sys2Proof/Machine/State.lean ====
section
/-! DEFINITION. The state of one engine instance: the thirteen registers of rule R14, each under the
spec's name, and beside them the model's own three fields (what the host will present on the ports,
what it has read, and the fault record rule R110 asks a model to keep). Then the reasons a step can
stop, and the state after reset (rule R32). -/

namespace Sys2Proof.Machine

/-- What a polling loop of the host waits for (rule R62). -/
inductive PollCond where
  /-- `WAIT`: until STATUS bit 0 (BUSY) reads 0. -/
  | notBusy
  /-- `WAITDONE`: until STATUS bit 1 (DONE) reads 1. -/
  | done
  deriving DecidableEq, Repr

/-- What the host does on the ports next (rules R13, R51, R52, R117). -/
inductive HostInput where
  /-- `cmd_valid = 1` with this `cmd_word`, held until it is accepted (rule R52). -/
  | command (w : CmdWord)
  /-- A read of `rd_data` under this `rd_sel` (rules R58, R101). -/
  | read (sel : ReadSel)
  /-- A step with `rst = 1` (rule R117). -/
  | reset
  /-- A step in which the host presents nothing. -/
  | idle
  /-- A polling loop on STATUS, `WAIT` or `WAITDONE` (rule R62). -/
  | poll (c : PollCond)
  deriving DecidableEq, Repr

/-- The state of one engine instance and of the host that drives it. -/
structure State where
  /-- `H[0..7]`, the Hash State (rule R15). -/
  h : Vector Word 8
  /-- `V[0..7]`, the working variables a..h (rule R16). -/
  v : Vector Word 8
  /-- `W[0..63]`, the Message Schedule (rule R17). -/
  w : Vector Word 64
  /-- `BUF[0..63]`, the block buffer (rule R18). -/
  buf : Vector Byte 64
  /-- `NBUF`, the buffer fill count (rule R18). -/
  nbuf : BitVec 7
  /-- `MLEN`, the message length in bytes (rule R19). -/
  mlen : BitVec 61
  /-- `PHASE`, as the code software sees in STATUS[19:16] (rule R20). -/
  phase : PhaseCode
  /-- `IDX`, the schedule or round index (rule R21). -/
  idx : BitVec 6
  /-- `FIN`, finalisation in progress (rule R22). -/
  fin : Bool
  /-- `LENPEND`, length field still owed (rule R23). -/
  lenpend : Bool
  /-- `ERR_OP`, sticky (rule R24). -/
  errOp : Bool
  /-- `ERR_SEQ`, sticky (rule R24). -/
  errSeq : Bool
  /-- `ERR_LEN`, sticky (rule R24). -/
  errLen : Bool
  /-- The MODEL'S own field: the fault record that nothing clears (rule R110). -/
  faulted : Bool
  /-- The MODEL'S own field: what the host presents on the ports, next first (rules R13, R46). -/
  inputs : List HostInput
  /-- The MODEL'S own field: the host's reads so far, oldest first, each a selector and the word
  returned (rule R101). -/
  reads : List (ReadSel × Word)
  deriving DecidableEq, Repr

/-- Why a step can stop. No state that a run reaches raises any of these (rules R20, R31). -/
inductive Fault where
  /-- PHASE holds a code 9..15. Raised by the sequencer when it would select a micro-operation and by
  the command port's handshake (rules R20, R85, R106: "It must treat that as a fault"). Safe. -/
  | unreachablePhase
  /-- `BUF[NBUF]` with `NBUF` ≥ 64: the buffer has no such byte. Raised by WRB and PAD outside the
  states rule R31 gives. Safe. -/
  | bufIndex
  /-- `W[IDX - 16]` with `IDX` < 16: the schedule has no such word. Raised by SCHED outside the states
  rule R31 gives. Safe. -/
  | schedIndex
  deriving DecidableEq, Repr

/-- Why a step is refused. -/
inductive Refusal where
  /-- The instruction has no meaning yet; raised in Dispatch.lean's arms only. No arm raises it in
  this model: every operation has its meaning. Safe. -/
  | notModelled (mnemonic : String)
  deriving DecidableEq, Repr

/-- The machine right after reset (rule R32). The spec leaves `V`, `W` and `BUF` unspecified: they
hold zero here, DESIGN CHOICE, unsafe (assumption log 1). The host has presented nothing and read
nothing, and no fault is recorded. -/
def State.reset : State where
  h := h0Rom
  v := Vector.replicate 8 0
  w := Vector.replicate 64 0
  buf := Vector.replicate 64 0
  nbuf := 0
  mlen := 0
  phase := Phase.idle.code
  idx := 0
  fin := false
  lenpend := false
  errOp := false
  errSeq := false
  errLen := false
  faulted := false
  inputs := []
  reads := []

end Sys2Proof.Machine
end

