-- ==== Sys2Proof/Machine/Flags.lean ====
section
/-! DEFINITION. The READY, BUSY and DONE conditions and the STATUS word computed from the registers
(rules R20, R25, R51). There are no arithmetic flags: every sum wraps silently (rules R8, R102). -/

namespace Sys2Proof.Machine

/-- `READY = (PHASE = IDLE) or (PHASE = DONE)` (rule R20). -/
def State.ready (s : State) : Bool := s.phase == Phase.idle.code || s.phase == Phase.done.code

/-- `BUSY = not READY` (rule R20). -/
def State.busy (s : State) : Bool := !s.ready

/-- STATUS.DONE (rule R25). -/
def State.done (s : State) : Bool := s.phase == Phase.done.code

/-- `rst` in the coming step: the host is about to present a reset step (rule R117). -/
def State.rst (s : State) : Bool :=
  match s.inputs with
  | .reset :: _ => true
  | _ => false

/-- The output port `cmd_ready`: `rst = 0` and READY (rule R51). -/
def State.cmdReady (s : State) : Bool := !s.rst && s.ready

/-- One STATUS bit at its place. -/
def statusBit (b : Bool) (place : Nat) : Word := (BitVec.ofBool b).setWidth 32 <<< place

/-- The STATUS word (rule R25): every field at its place, the reserved bits 0. -/
def State.status (s : State) : Word :=
  s.idx.setWidth 32 <<< 24 ||| s.phase.setWidth 32 <<< 16 ||| s.nbuf.setWidth 32 <<< 8
    ||| statusBit s.lenpend 6 ||| statusBit s.fin 5
    ||| statusBit s.errLen 4 ||| statusBit s.errSeq 3 ||| statusBit s.errOp 2
    ||| statusBit s.done 1 ||| statusBit s.busy 0

end Sys2Proof.Machine
end

