-- ==== Sys2Proof/Machine/Operands.lean ====
section
/-! DEFINITION. The word functions of the datapath (rules R8, R9, R70, R71, R76 to R79), the
conversions between bytes and words (rule R10), the length field (rule R67) and the host read map
(rule R42). -/

namespace Sys2Proof.Machine

/-! ## Rotation and shift (rule R9) -/

/-- Circular right rotation of a word by `n`, 0 < n < 32 (rule R9). -/
def rotr (x : Word) (n : Nat) : Word := (x >>> n) ||| (x <<< (32 - n))

/-- Logical right shift: the vacated bits are 0 (rule R9). -/
def shr (x : Word) (n : Nat) : Word := x >>> n

/-! ## The functions of the schedule and of the rounds -/

/-- σ0 (rule R70). -/
def smallSigma0 (x : Word) : Word := rotr x 7 ^^^ rotr x 18 ^^^ shr x 3

/-- σ1 (rule R71). -/
def smallSigma1 (x : Word) : Word := rotr x 17 ^^^ rotr x 19 ^^^ shr x 10

/-- Σ0 (rule R76). -/
def bigSigma0 (x : Word) : Word := rotr x 2 ^^^ rotr x 13 ^^^ rotr x 22

/-- Σ1 (rule R77). -/
def bigSigma1 (x : Word) : Word := rotr x 6 ^^^ rotr x 11 ^^^ rotr x 25

/-- Ch (rule R78). -/
def ch (e f g : Word) : Word := (e &&& f) ^^^ (~~~e &&& g)

/-- Maj (rule R79). -/
def maj (a b c : Word) : Word := (a &&& b) ^^^ (a &&& c) ^^^ (b &&& c)

/-! ## Bytes and words (rule R10) -/

/-- Four bytes to a word, the first most significant (rule R10). -/
def be32 (b0 b1 b2 b3 : Byte) : Word := b0 ++ b1 ++ b2 ++ b3

/-- Byte `k` (0..7) of a 64-bit value, most significant first (rule R10). -/
def be64byte (v : BitVec 64) (k : Nat) : Byte := v.extractLsb' (56 - 8 * k) 8

/-- Byte `k` (0..3) of a word, most significant first (rule R10). -/
def be32byte (x : Word) (k : Nat) : Byte := x.extractLsb' (24 - 8 * k) 8

/-- The four bytes of a word (rule R10). -/
def be32bytes (x : Word) : List Byte := [be32byte x 0, be32byte x 1, be32byte x 2, be32byte x 3]

/-- The eight bytes of a 64-bit value (rule R10). -/
def be64bytes (v : BitVec 64) : List Byte :=
  [be64byte v 0, be64byte v 1, be64byte v 2, be64byte v 3,
   be64byte v 4, be64byte v 5, be64byte v 6, be64byte v 7]

/-! ## The message length (rules R19, R67, R98) -/

/-- `LENFIELD = zext_64(MLEN) << 3`, the message length in bits (rule R67). -/
def lenField (mlen : BitVec 61) : BitVec 64 := mlen.setWidth 64 <<< 3

/-- The largest message length, 2^61 - 1 bytes (rules R6, R98). -/
def maxMlen : BitVec 61 := BitVec.ofNat 61 (2 ^ 61 - 1)

/-! ## Block images (rules R65, R66, R72) -/

/-- `BUF` after PAD with `n` bytes held, `n` ≤ 63 (rule R65): bytes below `n` untouched, 0x80 at `n`,
zeros after it, and the length field in bytes 56..63 when there is room for it. -/
def padBuf (buf : Vector Byte 64) (n : Nat) (mlen : BitVec 61) : Vector Byte 64 :=
  Vector.ofFn fun k : Fin 64 =>
    if k.val < n then buf[k]
    else if k.val = n then 0x80
    else if n ≤ 55 ∧ 56 ≤ k.val then be64byte (lenField mlen) (k.val - 56)
    else 0x00

/-- `BUF` after PAD2 (rule R66): 56 zero bytes and the length field. -/
def padBuf2 (mlen : BitVec 61) : Vector Byte 64 :=
  Vector.ofFn fun k : Fin 64 =>
    if k.val < 56 then 0x00 else be64byte (lenField mlen) (k.val - 56)

/-- Word `j` (0..15) of a block, big-endian (rules R35, R72). -/
def blockWord (buf : Vector Byte 64) (j : Fin 16) : Word :=
  be32 buf[4 * j.val] buf[4 * j.val + 1] buf[4 * j.val + 2] buf[4 * j.val + 3]

/-! ## The read port (rules R42, R101) -/

/-- The word at a read selector (rules R42, R101): `rd_data` as a function of state and `rd_sel`. -/
def State.readMap (s : State) (sel : ReadSel) : Word :=
  if h : sel.toNat < 8 then s.h[sel.toNat]
  else if sel = 8 then s.status
  else if sel = 9 then s.mlen.extractLsb' 0 32
  else if sel = 10 then (s.mlen.extractLsb' 32 29).setWidth 32
  else 0x00000000

/-- The digest as the host forms it, `be32bytes(H[0]) ‖ ... ‖ be32bytes(H[7])` (rules R37, R90). -/
def digestBytes (h : Vector Word 8) : List Byte := h.toList.flatMap be32bytes

/-- Whether a polling loop ends on this STATUS word (rule R62). -/
def PollCond.holds : PollCond → Word → Bool
  | .notBusy, status => !status.getLsbD 0
  | .done, status => status.getLsbD 1

end Sys2Proof.Machine
end

