-- ==== Sys2Proof/Machine/Ops.lean ====
section
/-! DEFINITION. The named operations on the state that the meanings share: raising an error flag,
starting a hash, the reset step, and the command port's handshake. The hardware has no traps (rules
R103, R108): raising a flag is what stands in the place of taking an exception, and it saves nothing,
changes no mode and redirects nothing, so there is no return from it either (rule R109). -/

namespace Sys2Proof.Machine

/-- The outcome of a step of this machine. -/
abbrev Result := Host.Outcome State Fault Refusal

/-- The three error conditions (rule R104). -/
inductive ErrFlag where
  | op
  | seq
  | len
  deriving DecidableEq, Repr

/-- `raise ERR_X`: sets the sticky flag and nothing else of the hardware (rules R11, R103), and the
model's fault record (rule R110). -/
def State.raise (s : State) : ErrFlag → State
  | .op => { s with errOp := true, faulted := true }
  | .seq => { s with errSeq := true, faulted := true }
  | .len => { s with errLen := true, faulted := true }

/-- The register writes of INIT (rule R97). `V`, `W` and `BUF` keep their values. -/
def State.startHash (s : State) : State :=
  { s with
    h := h0Rom
    nbuf := 0
    mlen := 0
    fin := false
    lenpend := false
    idx := 0
    errOp := false
    errSeq := false
    errLen := false
    phase := Phase.idle.code }

/-- The reset step (rule R117): every register takes its value of the reset state; the model's own
fields are not registers and stay. -/
def State.resetStep (s : State) : State :=
  { State.reset with faulted := s.faulted, inputs := s.inputs, reads := s.reads }

/-- The handshake of the command port (rules R52, R95): a command has its effect only when the engine
is READY. While BUSY it is not accepted and nothing changes. A PHASE code 9..15 is a fault (rule
R106). -/
def State.accept (s : State) (effect : Result) : Result :=
  if s.ready then effect
  else if s.phase.toNat ≤ 8 then .next s
  else .fault .unreachablePhase

/-- The host's read (rule R101): the word goes to the host's own record; no register changes. -/
def State.hostRead (s : State) (sel : ReadSel) : State :=
  { s with reads := s.reads ++ [(sel, s.readMap sel)] }

end Sys2Proof.Machine
end

