-- ==== Sys2Proof/Machine/Compression.lean ====
section
/-! DEFINITION. The compression-round datapath: WINIT, ROUND and FOLD (rules R80, R81, R82). -/

namespace Sys2Proof.Machine

/-- `T1` of a round (rule R81). -/
def roundT1 (v : Vector Word 8) (k w : Word) : Word :=
  v[7] + bigSigma1 v[4] + ch v[4] v[5] v[6] + k + w

/-- `T2` of a round (rule R81). -/
def roundT2 (v : Vector Word 8) : Word := bigSigma0 v[0] + maj v[0] v[1] v[2]

/-- The working variables after a round with constant `k` and schedule word `w`, all written at once
(rules R12, R81). -/
def roundV (v : Vector Word 8) (k w : Word) : Vector Word 8 :=
  #v[roundT1 v k w + roundT2 v, v[0], v[1], v[2], v[3] + roundT1 v k w, v[4], v[5], v[6]]

/-- `H[j] + V[j]` for every `j`, modulo 2^32 (rule R82). -/
def foldH (h v : Vector Word 8) : Vector Word 8 :=
  Vector.ofFn fun j : Fin 8 => h[j] + v[j]

/-- WINIT: load the working variables (rule R80). -/
def execWinit (s : State) : Result :=
  .next { s with
    v := s.h
    idx := 0
    phase := Phase.round.code }

/-- ROUND: one compression round, with `i = IDX` (rule R81). -/
def execRound (s : State) : Result :=
  .next { s with
    v := roundV s.v (kRom[s.idx.toNat]'s.idx.isLt) (s.w[s.idx.toNat]'s.idx.isLt)
    idx := s.idx + 1
    phase := if s.idx = 63 then Phase.fold.code else s.phase }

/-- FOLD: feed-forward into the Hash State, then pick the next phase (rule R82). -/
def execFold (s : State) : Result :=
  .next { s with
    h := foldH s.h s.v
    nbuf := 0
    phase :=
      if s.fin && s.lenpend then Phase.pad2.code
      else if s.fin then Phase.done.code
      else Phase.idle.code
    fin := s.fin && s.lenpend }

end Sys2Proof.Machine
end

