-- ==== Sys2Proof/Machine/HostCommands.lean ====
section
/-! DEFINITION. The host's operations: NOP, INIT, WRB, FINAL, the illegal command and RD (rules R95
to R101). Each command is behind the handshake of the command port (rule R52). -/

namespace Sys2Proof.Machine

/-- NOP: no register changes (rule R96). -/
def execNop (s : State) : Result :=
  s.accept (.next s)

/-- INIT: start a new hash computation (rule R97). -/
def execInit (s : State) : Result :=
  s.accept (.next s.startHash)

/-- The byte WRB stores, and the counters and phase after it (rule R98); `n` is `NBUF` before. -/
def State.appendByte (s : State) (d : Byte) (n : Nat) (hn : n < 64) : State :=
  { s with
    buf := s.buf.set n d
    nbuf := s.nbuf + 1
    mlen := s.mlen + 1
    phase := if n + 1 = 64 then Phase.loadw.code else s.phase }

/-- WRB: append one message byte (rule R98). The checks come in the order of rule R105. -/
def execWrb (d : Byte) (s : State) : Result :=
  s.accept
    (if s.phase = Phase.done.code then .next (s.raise .seq)
     else if s.mlen = maxMlen then .next (s.raise .len)
     else if hn : s.nbuf.toNat < 64 then .next (s.appendByte d s.nbuf.toNat hn)
     else .fault .bufIndex)

/-- FINAL: end the message; pad and finish (rule R99). -/
def execFinal (s : State) : Result :=
  s.accept
    (if s.phase = Phase.done.code then .next (s.raise .seq)
     else .next { s with fin := true, phase := Phase.pad.code })

/-- An illegal command raises ERR_OP whatever the rest of the word is (rule R100). -/
def execIllegal (_w : CmdWord) (s : State) : Result :=
  s.accept (.next (s.raise .op))

/-- RD: read a word, in every state (rule R101). -/
def execRd (sel : ReadSel) (s : State) : Result :=
  .next (s.hostRead sel)

end Sys2Proof.Machine
end

