-- ==== Sys2Proof/Machine/Padding.lean ====
section
/-! DEFINITION. The padding micro-operations PAD and PAD2 (rules R65, R66). -/

namespace Sys2Proof.Machine

/-- PAD: pad the partial last block (rule R65). -/
def execPad (s : State) : Result :=
  if s.nbuf.toNat < 64 then
    .next { s with
      buf := padBuf s.buf s.nbuf.toNat s.mlen
      lenpend := decide (56 ≤ s.nbuf.toNat)
      nbuf := 64
      phase := Phase.loadw.code }
  else .fault .bufIndex

/-- PAD2: emit the extra padding block (rule R66). -/
def execPad2 (s : State) : Result :=
  .next { s with
    buf := padBuf2 s.mlen
    lenpend := false
    nbuf := 64
    phase := Phase.loadw.code }

end Sys2Proof.Machine
end

