-- ==== Sys2Proof/Machine/Schedule.lean ====
section
/-! DEFINITION. The message-schedule expander: LOADW and SCHED (rules R72, R73). -/

namespace Sys2Proof.Machine

/-- The derived schedule word `W[i]`, 16 ≤ i < 64, a sum modulo 2^32 (rules R8, R73). -/
def schedWord (w : Vector Word 64) (i : Nat) (hi : i < 64) : Word :=
  w[i - 16] + smallSigma0 w[i - 15] + w[i - 7] + smallSigma1 w[i - 2]

/-- `W` after LOADW: words 0..15 from the block, the others unchanged (rule R72). -/
def loadWords (w : Vector Word 64) (buf : Vector Byte 64) : Vector Word 64 :=
  Vector.ofFn fun j : Fin 64 => if hj : j.val < 16 then blockWord buf ⟨j.val, hj⟩ else w[j]

/-- LOADW: load the block into the schedule (rule R72). -/
def execLoadw (s : State) : Result :=
  .next { s with
    w := loadWords s.w s.buf
    idx := 16
    phase := Phase.sched.code }

/-- SCHED: derive the schedule word `IDX` (rule R73). -/
def execSched (s : State) : Result :=
  if 16 ≤ s.idx.toNat then
    .next { s with
      w := s.w.set s.idx.toNat (schedWord s.w s.idx.toNat s.idx.isLt) s.idx.isLt
      idx := s.idx + 1
      phase := if s.idx = 63 then Phase.winit.code else s.phase }
  else .fault .schedIndex

end Sys2Proof.Machine
end

