-- ==== Sys2Proof/Machine/Dispatch.lean ====
section
/-! DEFINITION. One arm per operation, each a call of its meaning. -/

namespace Sys2Proof.Machine

def exec (i : Instr) (s : State) : Host.Outcome State Fault Refusal :=
  match i with
  | .nop => Sys2Proof.Machine.execNop s
  | .init => Sys2Proof.Machine.execInit s
  | .wrb d => Sys2Proof.Machine.execWrb d s
  | .final => Sys2Proof.Machine.execFinal s
  | .illegal w => Sys2Proof.Machine.execIllegal w s
  | .rd sel => Sys2Proof.Machine.execRd sel s
  | .pad => Sys2Proof.Machine.execPad s
  | .pad2 => Sys2Proof.Machine.execPad2 s
  | .loadw => Sys2Proof.Machine.execLoadw s
  | .sched => Sys2Proof.Machine.execSched s
  | .winit => Sys2Proof.Machine.execWinit s
  | .round => Sys2Proof.Machine.execRound s
  | .fold => Sys2Proof.Machine.execFold s

end Sys2Proof.Machine
end

