-- ==== Sys2Proof/Machine/Sequencer.lean ====
section
/-! DEFINITION. What the next step runs: the engine's choice by PHASE (rule R85) and the host's by
what it presents on the ports (rules R13, R52, R62, R95, R117). Step.lean only calls this file. -/

namespace Sys2Proof.Machine

/-- What one step does, chosen from the state before it. -/
inductive Fetch where
  /-- Run this operation on this state (the state before it, the host's part already taken). -/
  | run (i : Instr) (s : State)
  /-- No operation: the engine is READY and no command is presented (rule R94). -/
  | hold (s : State)
  /-- A reset step (rule R117). -/
  | reset (s : State)
  /-- PHASE holds a code 9..15 (rules R85, R106). -/
  | unreachable
  deriving DecidableEq, Repr

/-- The engine's next micro-operation, by PHASE alone (rule R85). -/
def State.fetchEngine (s : State) : Fetch :=
  match decodePhase s.phase with
  | .ok i => .run i s
  | .error .noMicroOperation => .hold s
  | .error .unreachablePhase => .unreachable

/-- One iteration of a polling loop (rule R62): a read of STATUS after which the loop either has ended
or gives the engine one step before its next read. The alternation is the fairness rule R62 asks a
model to assume (assumption log 6). -/
def State.pollRest (s : State) (c : PollCond) (rest : List HostInput) : List HostInput :=
  if c.holds (s.readMap 8) then rest else .idle :: .poll c :: rest

/-- What the next step runs. A command waits at the head while BUSY, and the engine steps meanwhile
(rules R13, R52); a host read is enabled in every state and is a step of its own (rules R62, R101);
a reset step performs no command and no micro-operation (rule R117). -/
def State.fetch (s : State) : Fetch :=
  match s.inputs with
  | [] => s.fetchEngine
  | .idle :: rest => State.fetchEngine { s with inputs := rest }
  | .reset :: rest => .reset { s with inputs := rest }
  | .read sel :: rest => .run (.rd sel) { s with inputs := rest }
  | .poll c :: rest => .run (.rd 8) { s with inputs := s.pollRest c rest }
  | .command w :: rest =>
    if s.ready then .run (decodeCommand w) { s with inputs := rest } else s.fetchEngine

/-- What the host presents, with a step for the engine first where the host would act in it. -/
def engineFirst : List HostInput → List HostInput
  | [] => []
  | .command w :: rest => .command w :: rest
  | .idle :: rest => .idle :: rest
  | .read sel :: rest => .idle :: .read sel :: rest
  | .reset :: rest => .idle :: .reset :: rest
  | .poll c :: rest => .idle :: .poll c :: rest

/-- The state in which the next step runs this micro-operation: PHASE selects it, no host action comes
first, and the index SCHED reads is one it has (rules R59, R73). -/
def State.selectPhase (s : State) (p : Phase) : State :=
  { s with
    phase := p.code
    idx := if p = .sched ∧ s.idx.toNat < 16 then 16 else s.idx
    inputs := engineFirst s.inputs }

/-- The state in which the next step accepts this command: it is at the head of what the host
presents, and the engine is READY (rule R52). -/
def State.presentCommand (s : State) (w : CmdWord) : State :=
  { s with
    phase := if s.ready then s.phase else Phase.idle.code
    inputs := .command w :: s.inputs }

/-- The state in which the next step runs the operation of a table row's bits (assumption log 9). -/
def State.placeWord (s : State) (nbits w : Nat) : State :=
  match decodeTableWord nbits w with
  | none => s
  | some (.rd sel) => { s with inputs := .read sel :: s.inputs }
  | some .pad => s.selectPhase .pad
  | some .pad2 => s.selectPhase .pad2
  | some .loadw => s.selectPhase .loadw
  | some .sched => s.selectPhase .sched
  | some .winit => s.selectPhase .winit
  | some .round => s.selectPhase .round
  | some .fold => s.selectPhase .fold
  | some _ => s.presentCommand (BitVec.ofNat 16 w)

end Sys2Proof.Machine
end

