-- ==== Sys2Proof/Machine/Step.lean ====
section
/-! DEFINITION. One step of the machine: one accepted command, one host read, one micro-operation, one
reset step, or nothing (rules R3, R13, R85, R95). -/

namespace Sys2Proof.Machine

/-- What a step chosen by `State.fetch` does (rules R85, R94, R95, R106, R117). -/
def perform : Fetch → Host.Outcome State Fault Refusal
  | .run i s => exec i s
  | .hold s => .next s
  | .reset s => .next s.resetStep
  | .unreachable => .fault .unreachablePhase

/-- One step. -/
def step (s : State) : Host.Outcome State Fault Refusal := perform s.fetch

/-- The state with a table row's bits placed where the next step takes its operation from. -/
def State.withFetchWord (s : State) (nbits w : Nat) : State := s.placeWord nbits w

end Sys2Proof.Machine
end

