-- ==== Sys2Proof/Machine/Hash.lean ====
section
/-! DEFINITION. The functions of the spec that say what a whole hash computes, apart from the machine:
`Pad` (rule R63), `Sched` (rule R74), `Compress` (rule R83) and `SHA256` (rule R91). No step uses
them; statements compare the machine with them. -/

namespace Sys2Proof.Machine

/-- `k = (55 - L) mod 64`, the number of zero bytes of the padding (rule R63). -/
def padZeros (len : Nat) : Nat := (119 - len % 64) % 64

/-- `Pad(m) = m ‖ 0x80 ‖ 0x00^k ‖ be64bytes(8·L)` for a message of `L` ≤ 2^61 - 1 bytes, the domain rule
R63 gives it. The spec leaves a longer message undefined (rules R5, R63). DESIGN CHOICE, unsafe there
(assumption log 22): the Lean function is total and takes `8·L` modulo 2^64. -/
def padMessage (m : List Byte) : List Byte :=
  m ++ 0x80 :: (List.replicate (padZeros m.length) 0x00 ++ be64bytes (BitVec.ofNat 64 (8 * m.length)))

/-- `nblocks(L) = ⌊(L + 8) / 64⌋ + 1` (rule R64). -/
def nblocks (len : Nat) : Nat := (len + 8) / 64 + 1

/-- Block `q` of a padded stream (rules R34, R91). -/
def blockAt (p : List Byte) (q : Nat) : Vector Byte 64 :=
  Vector.ofFn fun k : Fin 64 => p.getD (64 * q + k.val) 0

/-- The two equations that determine `Sched(B)` (rule R74). -/
def IsSchedule (b : Vector Byte 64) (w : Vector Word 64) : Prop :=
  (∀ (j : Nat) (hj : j < 16),
    w[j] = be32 b[4 * j] b[4 * j + 1] b[4 * j + 2] b[4 * j + 3]) ∧
  (∀ (i : Nat) (hi : i < 64), 16 ≤ i →
    w[i] = w[i - 16] + smallSigma0 w[i - 15] + w[i - 7] + smallSigma1 w[i - 2])

/-- The schedule after its first 16 words and `n` derived ones, from zeros (rule R74). -/
def scheduleUpTo (b : Vector Byte 64) : Nat → Vector Word 64
  | 0 => loadWords (Vector.replicate 64 0) b
  | n + 1 =>
    if hi : 16 + n < 64 then
      (scheduleUpTo b n).set (16 + n) (schedWord (scheduleUpTo b n) (16 + n) hi)
    else scheduleUpTo b n

/-- `Sched(B)` (rule R74). -/
def scheduleOf (b : Vector Byte 64) : Vector Word 64 := scheduleUpTo b 48

/-- `V_i` of the compression function (rule R83). -/
def roundsUpTo (s : Vector Word 8) (w : Vector Word 64) : Nat → Vector Word 8
  | 0 => s
  | i + 1 => if hi : i < 64 then roundV (roundsUpTo s w i) kRom[i] w[i] else roundsUpTo s w i

/-- `Compress(S, w)[j] = S[j] + V_64[j]` (rule R83). -/
def compress (s : Vector Word 8) (w : Vector Word 64) : Vector Word 8 :=
  Vector.ofFn fun j : Fin 8 => s[j] + (roundsUpTo s w 64)[j]

/-- `S_q`, the Hash State after the first `q` blocks of a padded stream (rule R91). -/
def hashStateAfter (p : List Byte) : Nat → Vector Word 8
  | 0 => h0Rom
  | q + 1 => compress (hashStateAfter p q) (scheduleOf (blockAt p q))

/-- `S_N`, the Hash State after every block of `Pad(m)`, for a message of at most 2^61 - 1 bytes (rule R91).
Beyond that it follows `padMessage`'s choice (assumption log 22). -/
def messageHash (m : List Byte) : Vector Word 8 :=
  hashStateAfter (padMessage m) (nblocks m.length)

/-- `SHA256(m)`, for a message of at most 2^61 - 1 bytes (rule R91). Beyond that it follows `padMessage`'s
choice (assumption log 22). -/
def sha256 (m : List Byte) : List Byte := digestBytes (messageHash m)

/-- Engine steps of a whole message of `len` bytes (rule R92). -/
def engineSteps (len : Nat) : Nat :=
  115 * nblocks len + (if len % 64 ≤ 55 then 1 else 2)

end Sys2Proof.Machine
end

