-- ==== Sys2Proof/Machine/HostAsm.lean ====
section
/-! DEFINITION. The host assembly language: lines and pseudo-instructions, what each makes the host do
on the ports, and the reading of a line's text (rules R61, R62). These are host-side macros and add
no behaviour of the hardware. -/

namespace Sys2Proof.Machine

/-- A line of the host assembly language, its operands as written (rules R61, R62). -/
inductive AsmLine where
  | nop
  | init
  | wrb (imm8 : Nat)
  | final
  | cmd (imm16 : Nat)
  | rd (sel : Nat)
  | wait
  | waitDone
  | wrs (bytes : List Byte)
  | digest
  | hash (message : List Byte)
  deriving DecidableEq, Repr

/-- Why the assembler refuses a line. -/
inductive AsmError where
  /-- An operand outside its range (rule R61: "else the line is refused by the assembler"). -/
  | outOfRange
  /-- No line form begins with this word. -/
  | unknownWord
  /-- The operands are not of the form's shape. -/
  | badOperand
  deriving DecidableEq, Repr

/-- `WRS`: one `WRB b` per byte, in order (rule R62). -/
def wrsInputs (bytes : List Byte) : List HostInput :=
  bytes.map fun b => .command (commandWord b 0x02)

/-- `DIGEST`: `RD 0` to `RD 7` (rule R62). -/
def digestInputs : List HostInput :=
  [.read 0, .read 1, .read 2, .read 3, .read 4, .read 5, .read 6, .read 7]

/-- `HASH m`: `INIT`, `WRS m`, `FINAL`, `WAITDONE`, `DIGEST` (rule R62). -/
def hashInputs (message : List Byte) : List HostInput :=
  .command 0x0001 :: (wrsInputs message ++ .command 0x0003 :: .poll .done :: digestInputs)

/-- What one line makes the host do on the ports (rules R61, R62). -/
def AsmLine.expand : AsmLine → Except AsmError (List HostInput)
  | .nop => .ok [.command 0x0000]
  | .init => .ok [.command 0x0001]
  | .wrb n => if n ≤ 255 then .ok [.command (commandWord (BitVec.ofNat 8 n) 0x02)] else .error .outOfRange
  | .final => .ok [.command 0x0003]
  | .cmd n => if n ≤ 65535 then .ok [.command (BitVec.ofNat 16 n)] else .error .outOfRange
  | .rd n => if n ≤ 15 then .ok [.read (BitVec.ofNat 4 n)] else .error .outOfRange
  | .wait => .ok [.poll .notBusy]
  | .waitDone => .ok [.poll .done]
  | .wrs bytes => .ok (wrsInputs bytes)
  | .digest => .ok digestInputs
  | .hash m => .ok (hashInputs m)

/-- What a list of lines makes the host do, or the first line's refusal (rules R61, R62). -/
def expandAll : List AsmLine → Except AsmError (List HostInput)
  | [] => .ok []
  | l :: ls =>
    match l.expand with
    | .error e => .error e
    | .ok a =>
      match expandAll ls with
      | .error e => .error e
      | .ok b => .ok (a ++ b)

/-! ## The text of a line

The spec fixes the forms and the numbers; that letters are matched exactly, and that spaces and tabs
separate, is the model's reading (assumption log 8). -/

/-- The double quote of `WRS "text"`. -/
def quoteChar : Char := Char.ofNat 34

/-- A space or a tab. -/
def isBlankChar (c : Char) : Bool := c == ' ' || c.toNat == 9

/-- A list of characters without blanks at either end. -/
def trimChars (cs : List Char) : List Char :=
  ((cs.dropWhile isBlankChar).reverse.dropWhile isBlankChar).reverse

/-- The line without its comment: `;` outside a quoted text starts one (rule R61). -/
def dropComment (quoted : Bool) : List Char → List Char
  | [] => []
  | c :: cs =>
    if c == ';' && !quoted then []
    else c :: dropComment (if c == quoteChar then !quoted else quoted) cs

/-- The value of a digit character in base ten or sixteen. -/
def digitValue (base : Nat) (c : Char) : Option Nat :=
  let v :=
    if 48 ≤ c.toNat ∧ c.toNat ≤ 57 then c.toNat - 48
    else if 97 ≤ c.toNat ∧ c.toNat ≤ 102 then c.toNat - 87
    else if 65 ≤ c.toNat ∧ c.toNat ≤ 70 then c.toNat - 55
    else base
  if v < base then some v else none

/-- Digits, most significant first, after the value `acc`. -/
def digitsValue (base : Nat) : Nat → List Char → Option Nat
  | acc, [] => some acc
  | acc, c :: cs =>
    match digitValue base c with
    | none => none
    | some v => digitsValue base (base * acc + v) cs

/-- A number: decimal, or hexadecimal with `0x` (rule R61). -/
def parseNumber : List Char → Option Nat
  | [] => none
  | '0' :: 'x' :: c :: cs => digitsValue 16 0 (c :: cs)
  | c :: cs => digitsValue 10 0 (c :: cs)

/-- A list split at every comma. -/
def splitCommas : List Char → List (List Char)
  | [] => [[]]
  | c :: cs =>
    match splitCommas cs with
    | [] => [[c]]
    | p :: ps => if c == ',' then [] :: p :: ps else (c :: p) :: ps

/-- Every element's byte value, where each is a number of at most 255. -/
def parseBytes : List (List Char) → Except AsmError (List Byte)
  | [] => .ok []
  | p :: ps =>
    match parseNumber (trimChars p) with
    | none => .error .badOperand
    | some n =>
      if 255 < n then .error .outOfRange
      else
        match parseBytes ps with
        | .error e => .error e
        | .ok bs => .ok (BitVec.ofNat 8 n :: bs)

/-- The bytes of an ASCII text (rule R62). -/
def asciiBytes : List Char → Except AsmError (List Byte)
  | [] => .ok []
  | c :: cs =>
    if 127 < c.toNat then .error .outOfRange
    else
      match asciiBytes cs with
      | .error e => .error e
      | .ok bs => .ok (BitVec.ofNat 8 c.toNat :: bs)

/-- A message operand: a quoted text, or `bytes[b0, b1, ...]` (rule R62). -/
def parseMessage (cs : List Char) : Except AsmError (List Byte) :=
  match cs with
  | [] => .error .badOperand
  | c :: rest =>
    if c == quoteChar then
      if rest.dropWhile (· != quoteChar) == [quoteChar] then asciiBytes (rest.takeWhile (· != quoteChar))
      else .error .badOperand
    else if (c :: rest).take 6 == ['b', 'y', 't', 'e', 's', '['] && rest.getLast? == some ']' then
      let inside := trimChars (rest.drop 5).dropLast
      if inside.isEmpty then .ok [] else parseBytes (splitCommas inside)
    else .error .badOperand

/-- A line form without operands. -/
def noOperand (rest : List Char) (l : AsmLine) : Except AsmError (Option AsmLine) :=
  if rest.isEmpty then .ok (some l) else .error .badOperand

/-- A line form with one number. -/
def oneNumber (rest : List Char) (f : Nat → AsmLine) : Except AsmError (Option AsmLine) :=
  match parseNumber rest with
  | none => .error .badOperand
  | some n => .ok (some (f n))

/-- A line form with a message. -/
def oneMessage (rest : List Char) (f : List Byte → AsmLine) : Except AsmError (Option AsmLine) :=
  match parseMessage rest with
  | .error e => .error e
  | .ok m => .ok (some (f m))

/-- The line a text stands for; a blank line or a line of comment only stands for none (rules R61,
R62). -/
def parseLine (text : List Char) : Except AsmError (Option AsmLine) :=
  let line := trimChars (dropComment false text)
  let word := line.takeWhile (fun c => !isBlankChar c)
  let rest := trimChars (line.dropWhile (fun c => !isBlankChar c))
  if word == [] then .ok none
  else if word == ['N', 'O', 'P'] then noOperand rest .nop
  else if word == ['I', 'N', 'I', 'T'] then noOperand rest .init
  else if word == ['W', 'R', 'B'] then oneNumber rest .wrb
  else if word == ['F', 'I', 'N', 'A', 'L'] then noOperand rest .final
  else if word == ['C', 'M', 'D'] then oneNumber rest .cmd
  else if word == ['R', 'D'] then oneNumber rest .rd
  else if word == ['W', 'A', 'I', 'T'] then noOperand rest .wait
  else if word == ['W', 'A', 'I', 'T', 'D', 'O', 'N', 'E'] then noOperand rest .waitDone
  else if word == ['W', 'R', 'S'] then oneMessage rest .wrs
  else if word == ['D', 'I', 'G', 'E', 'S', 'T'] then noOperand rest .digest
  else if word == ['H', 'A', 'S', 'H'] then oneMessage rest .hash
  else .error .unknownWord

end Sys2Proof.Machine
end

