-- ==== Sys2Proof/Config.lean ====
section
/-! DEFINITION. The OPEN parameters of the spec (spec/92_eei_decisions.md, "Open parameters"). They
are constants without a body, so nothing can be proved of their values beyond the stated domain. No
meaning depends on them: the spec says that no rule's functional result does. -/

namespace Sys2Proof.Config

/-- `N_ENGINES` less one, unconstrained. -/
opaque nEnginesLessOne : Nat

/-- `N_ENGINES` ≥ 1, the number of independent engine instances in a system (rules R29, R114; D25). -/
def nEngines : Nat := nEnginesLessOne + 1

/-- `CYCLES_PER_STEP` less one, unconstrained. -/
opaque cyclesLessOne : Instr → Nat

/-- `CYCLES_PER_STEP` ≥ 1, clock cycles of one model step, as a function of the operation
(rule R127; D32). -/
def cyclesPerStep (i : Instr) : Nat := cyclesLessOne i + 1

/-- The two ports an integrating system may place in an address map of its own (rule R43). -/
inductive HostPort where
  | command
  | read
  deriving DecidableEq, Repr

/-- `HOST_MAP`: where a system maps a port, if anywhere (rule R43; D37). DESIGN CHOICE, safe (assumption
log 21): the spec's domain is any mapping, base address and decoding included, and the model keeps of it
at most one address for each port. -/
opaque hostMap : HostPort → Option Nat

end Sys2Proof.Config
end

