-- ==== Sys2Proof/Machine/System.lean ====
section
/-! DEFINITION. A system of `N_ENGINES` independent engine instances, each with its own ports and its
own registers (rules R29, R114). The instances share only the constant ROMs. -/

namespace Sys2Proof.Machine

/-- The instances of a system, each with its own state. -/
structure System where
  engines : List State
  deriving DecidableEq, Repr

/-- Every instance right after its reset (rules R29, R32). -/
def System.reset : System := { engines := List.replicate Config.nEngines State.reset }

/-- One step of instance `k`; the others do not move (rule R114). -/
def System.stepAt (sys : System) (k : Fin sys.engines.length) : Host.Outcome System Fault Refusal :=
  match step sys.engines[k] with
  | .next t => .next { engines := sys.engines.set k.val t }
  | .fault f => .fault f
  | .refused r => .refused r

end Sys2Proof.Machine
end

