-- ==== Sys2Proof/Safety.lean ====
section
/-! DEFINITION. The terms statements use: runs of several steps, reachable states, the invariant of
rule R31, the fault record of rule R110, and which part of the hidden registers is live (rule R89). -/

namespace Sys2Proof.Machine

/-! ## Runs -/

/-- `n` steps, stopping at the first fault or refusal. -/
def run : Nat → State → Result
  | 0, s => .next s
  | n + 1, s =>
    match step s with
    | .next t => run n t
    | .fault f => .fault f
    | .refused r => .refused r

/-- A state that some run from reset passes through, whatever the host presents (rule R31). -/
inductive Reachable : State → Prop
  | reset (inputs : List HostInput) : Reachable { State.reset with inputs := inputs }
  | step {s t : State} : Reachable s → step s = .next t → Reachable t

/-- Nothing but a waiting command, if anything, stands on the ports: while BUSY only the engine steps
(rules R13, R52). -/
def State.Quiet (s : State) : Prop :=
  s.inputs = [] ∨ ∃ w rest, s.inputs = .command w :: rest

/-- The host inputs that hash the message `m` from any READY state: INIT, one WRB per byte, FINAL
(rule R91). -/
def messageInputs (m : List Byte) : List HostInput :=
  .command 0x0001 :: (wrsInputs m ++ [.command 0x0003])

/-- The command words among the host's inputs, in order: what an arbiter's merged command sequence is
(rule R46). -/
def commandsOf : List HostInput → List CmdWord
  | [] => []
  | .command w :: rest => w :: commandsOf rest
  | .read _ :: rest => commandsOf rest
  | .reset :: rest => commandsOf rest
  | .idle :: rest => commandsOf rest
  | .poll _ :: rest => commandsOf rest

/-- A host input that neither resets the engine nor waits for it. -/
def HostInput.isCommandReadOrIdle : HostInput → Bool
  | .command _ => true
  | .read _ => true
  | .idle => true
  | .reset => false
  | .poll _ => false

/-- How many steps after the start of `messageInputs` the LOADW of block `q` is next: the commands
before it, 115 steps for each block before it (rule R87), and PAD and PAD2 where they came before. -/
def loadwStep (len q : Nat) : Nat :=
  if q < len / 64 then 1 + 64 * (q + 1) + 115 * q else len + 3 + 115 * q + (q - len / 64)

/-- The seven micro-operations (rule R85), as against the host's operations. -/
def isMicro : Instr → Bool
  | .pad | .pad2 | .loadw | .sched | .winit | .round | .fold => true
  | .nop | .init | .wrb _ | .final | .illegal _ | .rd _ => false

/-! ## The reachable-state invariant (rule R31) -/

/-- What rule R31's table asks of a state in each phase, and that no other code stands in PHASE. -/
def State.Inv (s : State) : Prop :=
  match Phase.ofCode s.phase with
  | some .idle =>
    s.nbuf.toNat ≤ 63 ∧ s.idx = 0 ∧ s.fin = false ∧ s.lenpend = false ∧ s.mlen.toNat % 64 = s.nbuf.toNat
  | some .pad =>
    s.nbuf.toNat ≤ 63 ∧ s.idx = 0 ∧ s.fin = true ∧ s.lenpend = false ∧ s.mlen.toNat % 64 = s.nbuf.toNat
  | some .pad2 => s.nbuf = 0 ∧ s.idx = 0 ∧ s.fin = true ∧ s.lenpend = true
  | some .loadw => s.nbuf = 64 ∧ s.idx = 0 ∧ (s.lenpend = true → s.fin = true)
  | some .sched => s.nbuf = 64 ∧ 16 ≤ s.idx.toNat ∧ (s.lenpend = true → s.fin = true)
  | some .winit => s.nbuf = 64 ∧ s.idx = 0 ∧ (s.lenpend = true → s.fin = true)
  | some .round => s.nbuf = 64 ∧ (s.lenpend = true → s.fin = true)
  | some .fold => s.nbuf = 64 ∧ s.idx = 0 ∧ (s.lenpend = true → s.fin = true)
  | some .done => s.nbuf = 0 ∧ s.idx = 0 ∧ s.fin = false ∧ s.lenpend = false
  | none => False

/-- The phases in which a block is in the datapath, LOADW to FOLD (rule R87). -/
def State.inBlock (s : State) : Bool :=
  3 ≤ s.phase.toNat && s.phase.toNat ≤ 7

/-- What makes the invariant one that every step keeps: while a block of the message's own bytes is in
the datapath, the bytes counted are whole blocks. DEDUCED from rules R82 and R98 (assumption log 10). -/
def State.StepInv (s : State) : Prop :=
  s.Inv ∧ (s.inBlock = true → s.fin = false → s.mlen.toNat % 64 = 0)

/-- A raised error flag is in the fault record (rule R110). -/
def State.FaultsRecorded (s : State) : Prop :=
  (s.errOp = true ∨ s.errSeq = true ∨ s.errLen = true) → s.faulted = true

/-! ## Live parts of the hidden registers (rules R30, R89) -/

/-- The bytes of `BUF` that a later step may read before they are written again. -/
def State.bufLive (s : State) (k : Nat) : Bool :=
  if s.phase = Phase.loadw.code then true
  else if s.phase = Phase.idle.code ∨ s.phase = Phase.pad.code then k < s.nbuf.toNat
  else false

/-- The words of `W` that a later step may read before they are written again. -/
def State.wLive (s : State) (j : Nat) : Bool :=
  if s.phase = Phase.sched.code then j < s.idx.toNat
  else if s.phase = Phase.winit.code then true
  else if s.phase = Phase.round.code then s.idx.toNat ≤ j
  else false

/-- Whether `V` may be read before it is written again. -/
def State.vLive (s : State) : Bool :=
  s.phase == Phase.round.code || s.phase == Phase.fold.code

/-- Two states that differ at most in hidden registers whose values are dead (rules R89, R118). -/
structure State.LiveEq (s t : State) : Prop where
  h : s.h = t.h
  nbuf : s.nbuf = t.nbuf
  mlen : s.mlen = t.mlen
  phase : s.phase = t.phase
  idx : s.idx = t.idx
  fin : s.fin = t.fin
  lenpend : s.lenpend = t.lenpend
  errOp : s.errOp = t.errOp
  errSeq : s.errSeq = t.errSeq
  errLen : s.errLen = t.errLen
  faulted : s.faulted = t.faulted
  inputs : s.inputs = t.inputs
  reads : s.reads = t.reads
  buf : ∀ (k : Nat) (hk : k < 64), s.bufLive k = true → s.buf[k] = t.buf[k]
  w : ∀ (j : Nat) (hj : j < 64), s.wLive j = true → s.w[j] = t.w[j]
  v : s.vLive = true → s.v = t.v

end Sys2Proof.Machine
end

