-- ==== Sys2Proof/Certificates/Slice0/Obligations.lean ====
section
/-! DEFINITION. The statements for the provers. Each docstring names the rule it formalises. Named
phases are the codes of rule R20 (`PhaseRegisterCodes` states them). A free-standing `READY` is
written out as PHASE = IDLE or PHASE = DONE. -/

open Sys2Proof Sys2Proof.Machine

/-! ## Encoding -/

/-- Every well-formed operation is read back from its own encoding, every operand at every value (rules
R54, R55, R58, R59). -/
def Obligations.EncodeThenDecodeGivesTheOperation : Prop :=
  ∀ i : Instr, i.WellFormed → decode (encode i) = .ok i

/-- What decodes is well formed, and encoding it gives back the same bits but for the DATA bits that
NOP, INIT and FINAL ignore (rules R55, R56). -/
def Obligations.DecodeThenEncodeKeepsTheBits : Prop :=
  ∀ (e : Encoded) (i : Instr), decode e = .ok i →
    i.WellFormed ∧
    (encode i = e ∨
      (∃ d op, e = .cmd16 (commandWord d op) ∧ encode i = .cmd16 (commandWord 0 op) ∧
        (i = .nop ∨ i = .init ∨ i = .final)))

/-- The case table of rule R56, on every command word. -/
def Obligations.CommandDecodingIsTotal : Prop :=
  ∀ w : CmdWord,
    (w.extractLsb' 0 8 = 0x00 → decode (.cmd16 w) = .ok .nop) ∧
    (w.extractLsb' 0 8 = 0x01 → decode (.cmd16 w) = .ok .init) ∧
    (w.extractLsb' 0 8 = 0x02 → decode (.cmd16 w) = .ok (.wrb (w.extractLsb' 8 8))) ∧
    (w.extractLsb' 0 8 = 0x03 → decode (.cmd16 w) = .ok .final) ∧
    (4 ≤ (w.extractLsb' 0 8).toNat → decode (.cmd16 w) = .ok (.illegal w))

/-- Words written out from the spec: all thirteen rows of V8's decode table, the code of each
micro-operation, and a read selector. -/
def Obligations.WrittenWordsDecode : Prop :=
  decode (.cmd16 0x0000) = .ok .nop ∧
  decode (.cmd16 0xab00) = .ok .nop ∧
  decode (.cmd16 0x0001) = .ok .init ∧
  decode (.cmd16 0xff01) = .ok .init ∧
  decode (.cmd16 0x6102) = .ok (.wrb 0x61) ∧
  decode (.cmd16 0x0002) = .ok (.wrb 0x00) ∧
  decode (.cmd16 0x8002) = .ok (.wrb 0x80) ∧
  decode (.cmd16 0x0102) = .ok (.wrb 0x01) ∧
  decode (.cmd16 0x0003) = .ok .final ∧
  decode (.cmd16 0x0203) = .ok .final ∧
  decode (.cmd16 0x0004) = .ok (.illegal 0x0004) ∧
  decode (.cmd16 0x0010) = .ok (.illegal 0x0010) ∧
  decode (.cmd16 0x00ff) = .ok (.illegal 0x00ff) ∧
  decode (.phase 0b0001) = .ok .pad ∧
  decode (.phase 0b0010) = .ok .pad2 ∧
  decode (.phase 0b0011) = .ok .loadw ∧
  decode (.phase 0b0100) = .ok .sched ∧
  decode (.phase 0b0101) = .ok .winit ∧
  decode (.phase 0b0110) = .ok .round ∧
  decode (.phase 0b0111) = .ok .fold ∧
  decode (.rsel 0b1010) = .ok (.rd 10)

/-- The codes of the PHASE register, and that no other code has a name (rule R20). -/
def Obligations.PhaseRegisterCodes : Prop :=
  Phase.idle.code = 0 ∧ Phase.pad.code = 1 ∧ Phase.pad2.code = 2 ∧ Phase.loadw.code = 3 ∧
  Phase.sched.code = 4 ∧ Phase.winit.code = 5 ∧ Phase.round.code = 6 ∧ Phase.fold.code = 7 ∧
  Phase.done.code = 8 ∧
  (∀ p : Phase, Phase.ofCode p.code = some p) ∧
  (∀ c : PhaseCode, 9 ≤ c.toNat ↔ Phase.ofCode c = none)

/-! ## What a step runs -/

/-- Rule R85's dispatch table: with nothing presented but a waiting command, PHASE alone selects the
step; READY and with no command, there is none. -/
def Obligations.EngineStepIsSelectedByPhase : Prop :=
  ∀ s : State, s.Quiet →
    (s.phase = Phase.pad.code → step s = exec .pad s) ∧
    (s.phase = Phase.pad2.code → step s = exec .pad2 s) ∧
    (s.phase = Phase.loadw.code → step s = exec .loadw s) ∧
    (s.phase = Phase.sched.code → step s = exec .sched s) ∧
    (s.phase = Phase.winit.code → step s = exec .winit s) ∧
    (s.phase = Phase.round.code → step s = exec .round s) ∧
    (s.phase = Phase.fold.code → step s = exec .fold s) ∧
    (s.phase = Phase.idle.code ∨ s.phase = Phase.done.code → s.inputs = [] → step s = .next s) ∧
    (9 ≤ s.phase.toNat → step s = .fault .unreachablePhase)

/-- A step runs the operation that the bits selecting it decode to: the micro-operation of PHASE while
the host presents nothing or a command that waits, the accepted command, the host's read, the read of a
polling loop. What the step adds around `exec` is that the host's part is taken off the front of what it
will present (a polling loop that has not ended puts one engine step before its next read, the model's
fairness, assumption log 6). -/
def Obligations.StepRunsTheDecodedOperation : Prop :=
  (∀ (s : State) (i : Instr) (rest : List HostInput), decode (.phase s.phase) = .ok i →
    (s.inputs = [] → step s = exec i s) ∧
    (∀ w, s.inputs = .command w :: rest → step s = exec i s) ∧
    (s.inputs = .idle :: rest → step s = exec i { s with inputs := rest })) ∧
  (∀ (s : State) (w : CmdWord) (i : Instr) (rest : List HostInput),
    (s.phase = Phase.idle.code ∨ s.phase = Phase.done.code) →
    s.inputs = .command w :: rest → decode (.cmd16 w) = .ok i →
      step s = exec i { s with inputs := rest }) ∧
  (∀ (s : State) (sel : ReadSel) (i : Instr) (rest : List HostInput),
    s.inputs = .read sel :: rest → decode (.rsel sel) = .ok i →
      step s = exec i { s with inputs := rest }) ∧
  (∀ (s : State) (c : PollCond) (rest : List HostInput), s.inputs = .poll c :: rest →
    step s = exec (.rd 8)
      { s with inputs := if c.holds s.status then rest else .idle :: .poll c :: rest })

/-- In IDLE and DONE, with no command, no register changes and the state is held; only a command or a
reset can change a register there (rule R94). -/
def Obligations.ReadyEngineHoldsItsState : Prop :=
  ∀ s : State, s.phase = Phase.idle.code ∨ s.phase = Phase.done.code →
    (s.inputs = [] → ∀ n : Nat, run n s = .next s) ∧
    (∀ rest, s.inputs = .idle :: rest → step s = .next { s with inputs := rest }) ∧
    (∀ t, step s = .next t →
      (∃ rest, s.inputs = .reset :: rest) ∨ (∃ w rest, s.inputs = .command w :: rest) ∨
        ∃ inputs reads, t = { s with inputs := inputs, reads := reads })

/-- While BUSY a presented command is not accepted: it stays at the head, and the step is the one the
engine takes without it (rules R13, R52). -/
def Obligations.CommandWaitsWhileBusy : Prop :=
  ∀ (s : State) (w : CmdWord) (rest : List HostInput),
    s.phase ≠ Phase.idle.code → s.phase ≠ Phase.done.code → s.inputs = .command w :: rest →
      step s =
        match step { s with inputs := [] } with
        | .next t => .next { t with inputs := .command w :: rest }
        | .fault f => .fault f
        | .refused r => .refused r

/-- A reset step gives the reset state whatever the phase, runs nothing, and takes `cmd_ready` to 0
(rule R117); the registers rule R32 leaves unspecified are not spoken of. -/
def Obligations.ResetStepGivesTheResetState : Prop :=
  ∀ (s : State) (rest : List HostInput), s.inputs = .reset :: rest →
    s.cmdReady = false ∧
    ∃ t, step s = .next t ∧
      (∀ (j : Nat) (hj : j < 8), t.h[j] = h0Rom[j]) ∧
      t.nbuf = 0 ∧ t.mlen = 0 ∧ t.phase = Phase.idle.code ∧ t.idx = 0 ∧ t.fin = false ∧
      t.lenpend = false ∧ t.errOp = false ∧ t.errSeq = false ∧ t.errLen = false ∧
      t.inputs = rest ∧ t.reads = s.reads

/-- What reset leaves in the registers the spec gives a value (rule R32). The values of `H0` are rule
R28's table, which the spec marks as general knowledge (PRESUMED, assumption log 3). -/
def Obligations.ResetValues : Prop :=
  (∀ (j : Nat) (hj : j < 8), State.reset.h[j] = h0Rom[j]) ∧
  h0Rom.toList = [0x6a09e667, 0xbb67ae85, 0x3c6ef372, 0xa54ff53a,
    0x510e527f, 0x9b05688c, 0x1f83d9ab, 0x5be0cd19] ∧
  State.reset.nbuf = 0 ∧ State.reset.mlen = 0 ∧ State.reset.phase = Phase.idle.code ∧
  State.reset.idx = 0 ∧ State.reset.fin = false ∧ State.reset.lenpend = false ∧
  State.reset.errOp = false ∧ State.reset.errSeq = false ∧ State.reset.errLen = false ∧
  State.reset.readMap 8 = 0x00000000

/-! ## Host commands and reads -/

/-- NOP in IDLE and in DONE changes nothing, whatever DATA is (rule R96). -/
def Obligations.NopChangesNothing : Prop :=
  (∀ d : Byte, decodeCommand (commandWord d 0x00) = .nop) ∧
  (∀ s : State, s.phase = Phase.idle.code ∨ s.phase = Phase.done.code → exec .nop s = .next s)

/-- INIT in IDLE and in DONE starts a new hash: H0, the counters, FIN, LENPEND, IDX and all three flags
cleared, IDLE; everything else, `V`, `W` and `BUF` among it, unchanged (rule R97). -/
def Obligations.InitStartsANewHash : Prop :=
  (∀ d : Byte, decodeCommand (commandWord d 0x01) = .init) ∧
  (∀ s : State, s.phase = Phase.idle.code ∨ s.phase = Phase.done.code →
    exec .init s = .next { s with
      h := h0Rom, nbuf := 0, mlen := 0, fin := false, lenpend := false, idx := 0,
      errOp := false, errSeq := false, errLen := false, phase := Phase.idle.code })

/-- WRB (rule R98): refused in DONE with ERR_SEQ, refused at 2^61 - 1 bytes with ERR_LEN, and otherwise
the byte goes to `BUF[NBUF]`, both counters advance, and the 64th byte of a block starts it. The
model's fault record notes each raised flag (rule R110). -/
def Obligations.WrbAppendsAByte : Prop :=
  (∀ d : Byte, decodeCommand (commandWord d 0x02) = .wrb d) ∧
  (∀ (s : State) (d : Byte), s.phase = Phase.done.code →
    exec (.wrb d) s = .next { s with errSeq := true, faulted := true }) ∧
  (∀ (s : State) (d : Byte), s.phase = Phase.idle.code → s.mlen.toNat = 2 ^ 61 - 1 →
    exec (.wrb d) s = .next { s with errLen := true, faulted := true }) ∧
  (∀ (s : State) (d : Byte), s.phase = Phase.idle.code → s.mlen.toNat < 2 ^ 61 - 1 →
    ∀ hn : s.nbuf.toNat < 64,
      exec (.wrb d) s = .next { s with
        buf := s.buf.set s.nbuf.toNat d
        nbuf := s.nbuf + 1
        mlen := s.mlen + 1
        phase := if s.nbuf.toNat + 1 = 64 then Phase.loadw.code else Phase.idle.code })

/-- FINAL (rule R99): ERR_SEQ in DONE; in IDLE, FIN is set and PAD is next. -/
def Obligations.FinalStartsThePadding : Prop :=
  (∀ d : Byte, decodeCommand (commandWord d 0x03) = .final) ∧
  (∀ s : State, s.phase = Phase.done.code →
    exec .final s = .next { s with errSeq := true, faulted := true }) ∧
  (∀ s : State, s.phase = Phase.idle.code →
    exec .final s = .next { s with fin := true, phase := Phase.pad.code })

/-- An illegal command, in IDLE and in DONE, sets ERR_OP and changes nothing else of the hardware; the
model's fault record notes it (rules R100, R110). -/
def Obligations.IllegalCommandSetsErrOp : Prop :=
  ∀ (s : State) (w : CmdWord), s.phase = Phase.idle.code ∨ s.phase = Phase.done.code →
    4 ≤ (w.extractLsb' 0 8).toNat →
      decodeCommand w = .illegal w ∧
      exec (.illegal w) s = .next { s with errOp := true, faulted := true }

/-- RD returns the word of the read map in every state, and changes no register (rules R42, R101). -/
def Obligations.ReadReturnsTheReadMap : Prop :=
  ∀ (s : State) (sel : ReadSel),
    ∃ word, exec (.rd sel) s = .next { s with reads := s.reads ++ [(sel, word)] } ∧
      (∀ hsel : sel.toNat < 8, word = s.h[sel.toNat]) ∧
      (sel.toNat = 8 → word = s.status) ∧
      (sel.toNat = 9 → word.toNat = s.mlen.toNat % 2 ^ 32) ∧
      (sel.toNat = 10 → word.toNat = s.mlen.toNat / 2 ^ 32) ∧
      (11 ≤ sel.toNat → word = 0x00000000)

/-- Every field of STATUS at its place, its reserved bits 0, and `cmd_ready` beside it (rule R25). -/
def Obligations.StatusFields : Prop :=
  ∀ s : State,
    s.status.getLsbD 0 = decide (s.phase ≠ Phase.idle.code ∧ s.phase ≠ Phase.done.code) ∧
    s.status.getLsbD 1 = decide (s.phase = Phase.done.code) ∧
    s.status.getLsbD 2 = s.errOp ∧
    s.status.getLsbD 3 = s.errSeq ∧
    s.status.getLsbD 4 = s.errLen ∧
    s.status.getLsbD 5 = s.fin ∧
    s.status.getLsbD 6 = s.lenpend ∧
    s.status.getLsbD 7 = false ∧
    s.status.extractLsb' 8 7 = s.nbuf ∧
    s.status.getLsbD 15 = false ∧
    s.status.extractLsb' 16 4 = s.phase ∧
    s.status.extractLsb' 20 4 = 0 ∧
    s.status.extractLsb' 24 6 = s.idx ∧
    s.status.extractLsb' 30 2 = 0 ∧
    (s.rst = false → s.cmdReady = !s.status.getLsbD 0) ∧
    (s.rst = true → s.cmdReady = false)

/-- A command in a BUSY state has no effect of its own (rules R13, R52; V15). -/
def Obligations.CommandHasNoEffectWhileBusy : Prop :=
  ∀ (s : State) (w : CmdWord), 1 ≤ s.phase.toNat → s.phase.toNat ≤ 7 →
    exec (decodeCommand w) s = .next s

/-- The side effects rule R41 lists: a read changes no register and a second one returns the same word,
each accepted WRB counts a byte, FINAL after DONE sets ERR_SEQ, INIT twice is INIT once, NOP does
nothing. -/
def Obligations.SideEffectsAndIdempotency : Prop :=
  (∀ (s t u : State) (sel : ReadSel), exec (.rd sel) s = .next t → exec (.rd sel) t = .next u →
    ∃ word, t = { s with reads := s.reads ++ [(sel, word)] } ∧
      u = { s with reads := s.reads ++ [(sel, word), (sel, word)] }) ∧
  (∀ (s t : State) (d : Byte), s.phase = Phase.idle.code → s.mlen.toNat < 2 ^ 61 - 1 →
    exec (.wrb d) s = .next t → t.mlen.toNat = s.mlen.toNat + 1) ∧
  (∀ (s t : State), s.phase = Phase.done.code → exec .final s = .next t → t.errSeq = true) ∧
  (∀ (s t : State), s.phase = Phase.idle.code ∨ s.phase = Phase.done.code →
    exec .init s = .next t → exec .init t = .next t) ∧
  (∀ (s t : State), exec .nop s = .next t → t = s)

/-! ## Padding -/

/-- PAD with `n = NBUF` ≤ 63 bytes held (rules R65, R67): the bytes below `n` stay, 0x80 at `n`, then
zeros, with the length field in bytes 56..63 when `n` ≤ 55, and else LENPEND. -/
def Obligations.PadWritesTheLastBlock : Prop :=
  ∀ s : State, s.nbuf.toNat ≤ 63 →
    ∃ b : Vector Byte 64,
      exec .pad s = .next { s with
        buf := b, lenpend := decide (56 ≤ s.nbuf.toNat), nbuf := 64, phase := Phase.loadw.code } ∧
      ∀ (k : Nat) (hk : k < 64),
        (k < s.nbuf.toNat → b[k] = s.buf[k]) ∧
        (k = s.nbuf.toNat → b[k] = 0x80) ∧
        (s.nbuf.toNat ≤ 55 → s.nbuf.toNat < k → k ≤ 55 → b[k] = 0x00) ∧
        (s.nbuf.toNat ≤ 55 → 56 ≤ k →
          b[k] = BitVec.ofNat 8 (8 * s.mlen.toNat / 2 ^ (8 * (63 - k)))) ∧
        (56 ≤ s.nbuf.toNat → s.nbuf.toNat < k → b[k] = 0x00)

/-- PAD2 (rules R66, R67): 56 zero bytes and the length field, LENPEND cleared, LOADW next. -/
def Obligations.Pad2WritesTheLengthBlock : Prop :=
  ∀ s : State,
    ∃ b : Vector Byte 64,
      exec .pad2 s = .next { s with
        buf := b, lenpend := false, nbuf := 64, phase := Phase.loadw.code } ∧
      ∀ (k : Nat) (hk : k < 64),
        (k ≤ 55 → b[k] = 0x00) ∧
        (56 ≤ k → b[k] = BitVec.ofNat 8 (8 * s.mlen.toNat / 2 ^ (8 * (63 - k))))

/-- The properties of `Pad(m)` (rule R64): a whole number `nblocks(L)` of blocks, at least `L + 9` and
at most `L + 72` bytes, the message first, and the bit length in the last 8 bytes. -/
def Obligations.PaddedStreamProperties : Prop :=
  ∀ m : List Byte, m.length < 2 ^ 61 →
    (padMessage m).length = m.length + 9 + padZeros m.length ∧
    (padMessage m).length % 64 = 0 ∧
    m.length + 9 ≤ (padMessage m).length ∧ (padMessage m).length ≤ m.length + 72 ∧
    (padMessage m).length = 64 * nblocks m.length ∧
    nblocks m.length = (m.length + 9 + 63) / 64 ∧
    (padMessage m).take m.length = m ∧
    (padMessage m).drop ((padMessage m).length - 8) = be64bytes (BitVec.ofNat 64 (8 * m.length)) ∧
    (m.length % 64 ≤ 55 → nblocks m.length = m.length / 64 + 1) ∧
    (56 ≤ m.length % 64 → nblocks m.length = m.length / 64 + 2)

/-! ## Schedule -/

/-- LOADW (rule R72): words 0..15 from the block, big-endian, words 16..63 unchanged. -/
def Obligations.LoadwLoadsTheBlock : Prop :=
  ∀ s : State,
    ∃ w : Vector Word 64,
      exec .loadw s = .next { s with w := w, idx := 16, phase := Phase.sched.code } ∧
      (∀ (j : Nat) (hj : j < 16), w[j] =
        s.buf[4 * j] ++ s.buf[4 * j + 1] ++ s.buf[4 * j + 2] ++ s.buf[4 * j + 3]) ∧
      (∀ (j : Nat) (hj : j < 64), 16 ≤ j → w[j] = s.w[j])

/-- SCHED with `i = IDX` in 16..63 (rule R73): one word derived modulo 2^32, IDX advanced modulo 64, and
WINIT after word 63. -/
def Obligations.SchedDerivesOneWord : Prop :=
  ∀ s : State, s.phase = Phase.sched.code → 16 ≤ s.idx.toNat →
    exec .sched s = .next { s with
      w := s.w.set s.idx.toNat
        (s.w[s.idx.toNat - 16] + smallSigma0 s.w[s.idx.toNat - 15] + s.w[s.idx.toNat - 7]
          + smallSigma1 s.w[s.idx.toNat - 2])
      idx := BitVec.ofNat 6 ((s.idx.toNat + 1) % 64)
      phase := if s.idx.toNat = 63 then Phase.winit.code else Phase.sched.code }

/-- The schedule expander never reads `H`, `V` or `K` (rule R75): states that agree on BUF, W, IDX and
PHASE are taken to states that agree on them. -/
def Obligations.ScheduleReadsOnlyItsOwnRegisters : Prop :=
  ∀ (s t s' : State) (i : Instr), i = .loadw ∨ i = .sched →
    s.buf = t.buf → s.w = t.w → s.idx = t.idx → s.phase = t.phase →
    exec i s = .next s' →
      ∃ t', exec i t = .next t' ∧
        s'.buf = t'.buf ∧ s'.w = t'.w ∧ s'.idx = t'.idx ∧ s'.phase = t'.phase

/-- LOADW and the 48 SCHED steps after it leave `W = Sched(B)` for the block in `BUF` (rule R74): the
two equations that determine it hold. -/
def Obligations.ScheduleOfABlock : Prop :=
  ∀ s : State, s.Quiet → s.phase = Phase.loadw.code →
    ∃ t, run 49 s = .next t ∧ t.phase = Phase.winit.code ∧ IsSchedule s.buf t.w ∧
      t.w = scheduleOf s.buf

/-! ## Compression -/

/-- WINIT (rule R80): the Hash State is copied to the working variables. -/
def Obligations.WinitCopiesTheHashState : Prop :=
  ∀ s : State,
    exec .winit s = .next { s with v := s.h, idx := 0, phase := Phase.round.code }

/-- ROUND with `i = IDX` (rule R81): the simultaneous update of the working variables modulo 2^32, IDX
advanced modulo 64, and FOLD after round 63. -/
def Obligations.RoundUpdatesTheWorkingVariables : Prop :=
  ∀ s : State, s.phase = Phase.round.code →
    ∃ t1 t2 : Word,
      t1 = s.v[7] + bigSigma1 s.v[4] + ch s.v[4] s.v[5] s.v[6]
        + kRom[s.idx.toNat]'s.idx.isLt + s.w[s.idx.toNat]'s.idx.isLt ∧
      t2 = bigSigma0 s.v[0] + maj s.v[0] s.v[1] s.v[2] ∧
      exec .round s = .next { s with
        v := #v[t1 + t2, s.v[0], s.v[1], s.v[2], s.v[3] + t1, s.v[4], s.v[5], s.v[6]]
        idx := BitVec.ofNat 6 ((s.idx.toNat + 1) % 64)
        phase := if s.idx.toNat = 63 then Phase.fold.code else Phase.round.code }

/-- FOLD (rule R82): feed-forward addition, NBUF cleared, and PAD2, DONE or IDLE next by FIN and
LENPEND; FIN is cleared on entering DONE. -/
def Obligations.FoldFeedsForward : Prop :=
  ∀ s : State,
    ∃ h : Vector Word 8,
      (∀ (j : Nat) (hj : j < 8), h[j] = s.h[j] + s.v[j]) ∧
      (s.fin = true → s.lenpend = true →
        exec .fold s = .next { s with h := h, nbuf := 0, phase := Phase.pad2.code }) ∧
      (s.fin = true → s.lenpend = false →
        exec .fold s = .next { s with h := h, nbuf := 0, phase := Phase.done.code, fin := false }) ∧
      (s.fin = false →
        exec .fold s = .next { s with h := h, nbuf := 0, phase := Phase.idle.code })

/-- The bits of the word functions: rotation and logical shift (rule R9), the four sigmas (rules R70,
R71, R76, R77), the choice of `Ch` (rule R78) and the majority of `Maj` (rule R79). -/
def Obligations.WordFunctionsBitByBit : Prop :=
  (∀ (x : Word) (n i : Nat), 0 < n → n < 32 → i < 32 →
    (rotr x n).getLsbD i = x.getLsbD ((i + n) % 32)) ∧
  (∀ (x : Word) (n i : Nat), 0 < n → n < 32 → i < 32 →
    (shr x n).getLsbD i = (decide (i + n < 32) && x.getLsbD (i + n))) ∧
  (∀ (x : Word) (i : Nat), i < 32 →
    (smallSigma0 x).getLsbD i =
      ((x.getLsbD ((i + 7) % 32) ^^ x.getLsbD ((i + 18) % 32)) ^^
        (decide (i + 3 < 32) && x.getLsbD (i + 3)))) ∧
  (∀ (x : Word) (i : Nat), i < 32 →
    (smallSigma1 x).getLsbD i =
      ((x.getLsbD ((i + 17) % 32) ^^ x.getLsbD ((i + 19) % 32)) ^^
        (decide (i + 10 < 32) && x.getLsbD (i + 10)))) ∧
  (∀ (x : Word) (i : Nat), i < 32 →
    (bigSigma0 x).getLsbD i =
      ((x.getLsbD ((i + 2) % 32) ^^ x.getLsbD ((i + 13) % 32)) ^^ x.getLsbD ((i + 22) % 32))) ∧
  (∀ (x : Word) (i : Nat), i < 32 →
    (bigSigma1 x).getLsbD i =
      ((x.getLsbD ((i + 6) % 32) ^^ x.getLsbD ((i + 11) % 32)) ^^ x.getLsbD ((i + 25) % 32))) ∧
  (∀ (e f g : Word) (i : Nat), i < 32 →
    (ch e f g).getLsbD i = if e.getLsbD i then f.getLsbD i else g.getLsbD i) ∧
  (∀ (a b c : Word) (i : Nat), i < 32 →
    (maj a b c).getLsbD i =
      (a.getLsbD i && b.getLsbD i || a.getLsbD i && c.getLsbD i || b.getLsbD i && c.getLsbD i))

/-- WINIT, 64 ROUND steps and FOLD leave `H = Compress(S, w)` (rule R83). -/
def Obligations.CompressionOfABlock : Prop :=
  ∀ s : State, s.Quiet → s.phase = Phase.winit.code →
    ∃ t, run 66 s = .next t ∧ t.h = compress s.h s.w

/-! ## Frames -/

/-- What a command leaves unchanged. None changes `V`, `W` or what the host presents or has read; the
store is WRB's alone and goes to `BUF[NBUF]`; `H`, IDX and LENPEND change by INIT alone. -/
def Obligations.CommandFrame : Prop :=
  ∀ (s t : State) (i : Instr),
    (i = .nop ∨ i = .init ∨ (∃ d, i = .wrb d) ∨ i = .final ∨ (∃ w, i = .illegal w)) →
    exec i s = .next t →
      t.v = s.v ∧ t.w = s.w ∧ t.inputs = s.inputs ∧ t.reads = s.reads ∧
      (i ≠ .init → t.h = s.h ∧ t.idx = s.idx ∧ t.lenpend = s.lenpend) ∧
      (∀ (k : Nat) (hk : k < 64), ((∃ d, i = .wrb d) → k ≠ s.nbuf.toNat) → t.buf[k] = s.buf[k]) ∧
      (i = .nop ∨ i = .final ∨ (∃ w, i = .illegal w) → t.nbuf = s.nbuf ∧ t.mlen = s.mlen) ∧
      (i = .nop ∨ (∃ w, i = .illegal w) → t.phase = s.phase) ∧
      (i = .nop ∨ (∃ d, i = .wrb d) ∨ (∃ w, i = .illegal w) → t.fin = s.fin) ∧
      (i = .nop ∨ (∃ d, i = .wrb d) ∨ i = .final → t.errOp = s.errOp) ∧
      (i = .nop ∨ (∃ w, i = .illegal w) → t.errSeq = s.errSeq) ∧
      (i = .nop ∨ i = .final ∨ (∃ w, i = .illegal w) → t.errLen = s.errLen) ∧
      (i = .nop ∨ i = .init → t.faulted = s.faulted)

/-- What PAD and PAD2 leave unchanged; PAD stores from `BUF[NBUF]` on, PAD2 everywhere in `BUF`. -/
def Obligations.PaddingFrame : Prop :=
  ∀ (s t : State) (i : Instr), i = .pad ∨ i = .pad2 → exec i s = .next t →
    t.h = s.h ∧ t.v = s.v ∧ t.w = s.w ∧ t.mlen = s.mlen ∧ t.idx = s.idx ∧ t.fin = s.fin ∧
    t.errOp = s.errOp ∧ t.errSeq = s.errSeq ∧ t.errLen = s.errLen ∧ t.faulted = s.faulted ∧
    t.inputs = s.inputs ∧ t.reads = s.reads ∧
    (i = .pad → ∀ (k : Nat) (hk : k < 64), k < s.nbuf.toNat → t.buf[k] = s.buf[k])

/-- What LOADW and SCHED leave unchanged: everything but `W`, IDX and PHASE, and of `W` every word that
is not theirs (rule R75). -/
def Obligations.ScheduleFrame : Prop :=
  ∀ (s t : State) (i : Instr), i = .loadw ∨ i = .sched → exec i s = .next t →
    t.h = s.h ∧ t.v = s.v ∧ t.buf = s.buf ∧ t.nbuf = s.nbuf ∧ t.mlen = s.mlen ∧ t.fin = s.fin ∧
    t.lenpend = s.lenpend ∧ t.errOp = s.errOp ∧ t.errSeq = s.errSeq ∧ t.errLen = s.errLen ∧
    t.faulted = s.faulted ∧ t.inputs = s.inputs ∧ t.reads = s.reads ∧
    (i = .loadw → ∀ (j : Nat) (hj : j < 64), 16 ≤ j → t.w[j] = s.w[j]) ∧
    (i = .sched → ∀ (j : Nat) (hj : j < 64), j ≠ s.idx.toNat → t.w[j] = s.w[j])

/-- What WINIT, ROUND and FOLD leave unchanged. -/
def Obligations.CompressionFrame : Prop :=
  ∀ (s t : State) (i : Instr), i = .winit ∨ i = .round ∨ i = .fold → exec i s = .next t →
    t.w = s.w ∧ t.buf = s.buf ∧ t.mlen = s.mlen ∧ t.lenpend = s.lenpend ∧
    t.errOp = s.errOp ∧ t.errSeq = s.errSeq ∧ t.errLen = s.errLen ∧ t.faulted = s.faulted ∧
    t.inputs = s.inputs ∧ t.reads = s.reads ∧
    (i ≠ .fold → t.h = s.h ∧ t.nbuf = s.nbuf ∧ t.fin = s.fin) ∧
    (i = .fold → t.v = s.v ∧ t.idx = s.idx)

/-! ## Errors -/

/-- Every micro-operation is total on the states of the reachable-state invariant, and raises no error
(rule R102). -/
def Obligations.MicroOperationsRaiseNoError : Prop :=
  ∀ (s : State) (i : Instr), s.Inv → decodePhase s.phase = .ok i →
    ∃ t, exec i s = .next t ∧
      t.errOp = s.errOp ∧ t.errSeq = s.errSeq ∧ t.errLen = s.errLen ∧ t.faulted = s.faulted

/-- The table of error conditions (rule R104): which accepted command sets which flag, and when; no
step sets a flag otherwise; and the STATUS bit each is reported at. -/
def Obligations.ErrorConditions : Prop :=
  ∀ s t : State, step s = .next t →
    ((∃ w rest, s.inputs = .command w :: rest ∧
        (s.phase = Phase.idle.code ∨ s.phase = Phase.done.code) ∧ 4 ≤ (w.extractLsb' 0 8).toNat) →
      t.errOp = true) ∧
    (s.errOp = false → t.errOp = true → ∃ w rest, s.inputs = .command w :: rest ∧
      (s.phase = Phase.idle.code ∨ s.phase = Phase.done.code) ∧ 4 ≤ (w.extractLsb' 0 8).toNat) ∧
    ((∃ w rest, s.inputs = .command w :: rest ∧ s.phase = Phase.done.code ∧
        (w.extractLsb' 0 8 = 0x02 ∨ w.extractLsb' 0 8 = 0x03)) →
      t.errSeq = true) ∧
    (s.errSeq = false → t.errSeq = true → ∃ w rest, s.inputs = .command w :: rest ∧
      s.phase = Phase.done.code ∧ (w.extractLsb' 0 8 = 0x02 ∨ w.extractLsb' 0 8 = 0x03)) ∧
    ((∃ w rest, s.inputs = .command w :: rest ∧ s.phase = Phase.idle.code ∧
        w.extractLsb' 0 8 = 0x02 ∧ s.mlen.toNat = 2 ^ 61 - 1) →
      t.errLen = true) ∧
    (s.errLen = false → t.errLen = true → ∃ w rest, s.inputs = .command w :: rest ∧
      s.phase = Phase.idle.code ∧ w.extractLsb' 0 8 = 0x02 ∧ s.mlen.toNat = 2 ^ 61 - 1) ∧
    t.status.getLsbD 2 = t.errOp ∧ t.status.getLsbD 3 = t.errSeq ∧ t.status.getLsbD 4 = t.errLen

/-- An accepted command that meets an error condition sets its one flag and makes no other change of the
hardware, whatever flags are set already (rule R103), and the first check that applies wins (rule
R105). The model's fault record notes it (rule R110), and the command is taken off the port. -/
def Obligations.RaisingAFlagChangesNothingElse : Prop :=
  ∀ (s : State) (w : CmdWord) (rest : List HostInput), s.inputs = .command w :: rest →
    (s.phase = Phase.idle.code ∨ s.phase = Phase.done.code → 4 ≤ (w.extractLsb' 0 8).toNat →
      step s = .next { s with errOp := true, faulted := true, inputs := rest }) ∧
    (s.phase = Phase.done.code → w.extractLsb' 0 8 = 0x02 ∨ w.extractLsb' 0 8 = 0x03 →
      step s = .next { s with errSeq := true, faulted := true, inputs := rest }) ∧
    (s.phase = Phase.idle.code → w.extractLsb' 0 8 = 0x02 → s.mlen.toNat = 2 ^ 61 - 1 →
      step s = .next { s with errLen := true, faulted := true, inputs := rest })

/-- The error flags are sticky: only an accepted INIT or a reset step clears them (rules R24, R109). -/
def Obligations.ErrorFlagsAreSticky : Prop :=
  ∀ s t : State, step s = .next t →
    ((s.errOp = true ∧ t.errOp = false) ∨ (s.errSeq = true ∧ t.errSeq = false) ∨
      (s.errLen = true ∧ t.errLen = false)) →
    (∃ rest, s.inputs = .reset :: rest) ∨
    (∃ w rest, s.inputs = .command w :: rest ∧ w.extractLsb' 0 8 = 0x01 ∧
      (s.phase = Phase.idle.code ∨ s.phase = Phase.done.code))

/-- Nothing clears the fault record, and whatever raises a flag sets it (rule R110). -/
def Obligations.FaultRecordIsNeverCleared : Prop :=
  ∀ s t : State, step s = .next t →
    (s.faulted = true → t.faulted = true) ∧
    (s.FaultsRecorded → t.FaultsRecorded) ∧
    (t.faulted = true → s.faulted = true ∨ t.errOp = true ∨ t.errSeq = true ∨ t.errLen = true)

/-- An unreachable PHASE code stops the engine and the command port by name (rules R20, R106), and so
does an index outside its array, which the spec's states never hold (assumption log 4). -/
def Obligations.UnreachableStatesFault : Prop :=
  (∀ s : State, 9 ≤ s.phase.toNat → s.Quiet → step s = .fault .unreachablePhase) ∧
  (∀ s : State, 64 ≤ s.nbuf.toNat → exec .pad s = .fault .bufIndex) ∧
  (∀ (s : State) (d : Byte), 64 ≤ s.nbuf.toNat → s.phase = Phase.idle.code →
    s.mlen.toNat < 2 ^ 61 - 1 → exec (.wrb d) s = .fault .bufIndex) ∧
  (∀ s : State, s.idx.toNat < 16 → exec .sched s = .fault .schedIndex)

/-! ## Invariants -/

/-- Every step keeps the reachable-state invariant of rule R31, taken together with the clause that
makes it inductive (assumption log 10). -/
def Obligations.StepKeepsTheInvariant : Prop :=
  ∀ s t : State, s.StepInv → step s = .next t → t.StepInv

/-- The reset state has the invariant. -/
def Obligations.ResetHasTheInvariant : Prop :=
  ∀ inputs : List HostInput,
    State.StepInv { State.reset with inputs := inputs } ∧
    State.FaultsRecorded { State.reset with inputs := inputs }

/-- In every state reachable from reset the registers satisfy rule R31's table. -/
def Obligations.ReachableStatesSatisfyTheTable : Prop :=
  ∀ s : State, Reachable s → s.Inv ∧ s.mlen.toNat ≤ 2 ^ 61 - 1

/-- No reachable state stops: the faults of the model stand only where the spec has no state (rules
R20, R102, R106). -/
def Obligations.ReachableStatesNeverStop : Prop :=
  ∀ s : State, Reachable s → ∃ t, step s = .next t

/-! ## The sequencer -/

/-- The transitions of rule R86, row by row: the commands, then the micro-operations, then reset. -/
def Obligations.PhaseTransitions : Prop :=
  (∀ (s t : State) (w : CmdWord) (rest : List HostInput), s.Inv → s.inputs = .command w :: rest →
    step s = .next t →
    (s.phase = Phase.idle.code → w.extractLsb' 0 8 = 0x02 → s.mlen.toNat < 2 ^ 61 - 1 →
      s.nbuf.toNat = 63 → t.phase = Phase.loadw.code) ∧
    (s.phase = Phase.idle.code → w.extractLsb' 0 8 = 0x02 →
      s.nbuf.toNat < 63 ∨ s.mlen.toNat = 2 ^ 61 - 1 → t.phase = Phase.idle.code) ∧
    (s.phase = Phase.idle.code → w.extractLsb' 0 8 = 0x03 → t.phase = Phase.pad.code) ∧
    (s.phase = Phase.idle.code ∨ s.phase = Phase.done.code → w.extractLsb' 0 8 = 0x01 →
      t.phase = Phase.idle.code) ∧
    (s.phase = Phase.done.code → w.extractLsb' 0 8 = 0x02 ∨ w.extractLsb' 0 8 = 0x03 →
      t.phase = Phase.done.code ∧ t.errSeq = true) ∧
    (s.phase = Phase.idle.code ∨ s.phase = Phase.done.code →
      w.extractLsb' 0 8 = 0x00 ∨ 4 ≤ (w.extractLsb' 0 8).toNat → t.phase = s.phase)) ∧
  (∀ s t : State, s.Inv → s.Quiet → step s = .next t →
    (s.phase = Phase.pad.code ∨ s.phase = Phase.pad2.code → t.phase = Phase.loadw.code) ∧
    (s.phase = Phase.loadw.code → t.phase = Phase.sched.code ∧ t.idx.toNat = 16) ∧
    (s.phase = Phase.sched.code → s.idx.toNat < 63 →
      t.phase = Phase.sched.code ∧ t.idx.toNat = s.idx.toNat + 1) ∧
    (s.phase = Phase.sched.code → s.idx.toNat = 63 → t.phase = Phase.winit.code) ∧
    (s.phase = Phase.winit.code → t.phase = Phase.round.code ∧ t.idx.toNat = 0) ∧
    (s.phase = Phase.round.code → s.idx.toNat < 63 →
      t.phase = Phase.round.code ∧ t.idx.toNat = s.idx.toNat + 1) ∧
    (s.phase = Phase.round.code → s.idx.toNat = 63 → t.phase = Phase.fold.code) ∧
    (s.phase = Phase.fold.code → s.fin = false → t.phase = Phase.idle.code) ∧
    (s.phase = Phase.fold.code → s.fin = true → s.lenpend = true → t.phase = Phase.pad2.code) ∧
    (s.phase = Phase.fold.code → s.fin = true → s.lenpend = false → t.phase = Phase.done.code)) ∧
  (∀ (s t : State) (rest : List HostInput), s.inputs = .reset :: rest → step s = .next t →
    t.phase = Phase.idle.code)

/-- Each block is processed by the 115 engine steps of rule R87, in that order, PAD and PAD2 lead to
one, and no step but theirs leads to the LOADW of a block that ends the message. -/
def Obligations.BlockStepOrder : Prop :=
  (∀ s : State, s.Quiet → s.phase = Phase.loadw.code →
    (∀ n : Nat, n < 48 → ∃ t, run (1 + n) s = .next t ∧ t.phase = Phase.sched.code ∧
      t.idx.toNat = 16 + n) ∧
    (∃ t, run 49 s = .next t ∧ t.phase = Phase.winit.code) ∧
    (∀ n : Nat, n < 64 → ∃ t, run (50 + n) s = .next t ∧ t.phase = Phase.round.code ∧
      t.idx.toNat = n) ∧
    (∃ t, run 114 s = .next t ∧ t.phase = Phase.fold.code) ∧
    (∃ t, run 115 s = .next t ∧
      (t.phase = Phase.idle.code ∨ t.phase = Phase.done.code ∨ t.phase = Phase.pad2.code))) ∧
  (∀ s : State, s.Quiet →
    (s.phase = Phase.pad.code ∧ s.nbuf.toNat ≤ 63) ∨ s.phase = Phase.pad2.code →
      ∃ t, step s = .next t ∧ t.phase = Phase.loadw.code) ∧
  (∀ s t : State, s.Inv → step s = .next t → s.phase ≠ Phase.loadw.code →
    t.phase = Phase.loadw.code → t.fin = true →
      s.phase = Phase.pad.code ∨ s.phase = Phase.pad2.code)

/-- One block, whole: 115 steps from LOADW fold the compression of the block's schedule into the Hash
State and leave the message count, LENPEND, the error flags and the host's side as they were (rules R74, R83, R87). -/
def Obligations.BlockFoldsIntoTheHashState : Prop :=
  ∀ s : State, s.Quiet → s.phase = Phase.loadw.code →
    ∃ t, run 115 s = .next t ∧
      t.h = compress s.h (scheduleOf s.buf) ∧
      t.nbuf = 0 ∧ t.idx = 0 ∧ t.mlen = s.mlen ∧ t.lenpend = s.lenpend ∧
      t.errOp = s.errOp ∧ t.errSeq = s.errSeq ∧ t.errLen = s.errLen ∧ t.faulted = s.faulted ∧
      t.inputs = s.inputs ∧ t.reads = s.reads ∧
      (s.fin = false → t.phase = Phase.idle.code ∧ t.fin = false) ∧
      (s.fin = true → s.lenpend = false → t.phase = Phase.done.code ∧ t.fin = false) ∧
      (s.fin = true → s.lenpend = true → t.phase = Phase.pad2.code ∧ t.fin = true)

/-- The BUSY intervals of rule R92: exactly 115 steps after the WRB that fills the buffer, and exactly
116 or 232 after FINAL; BUSY all the while. -/
def Obligations.BusyIntervalsAreExact : Prop :=
  ∀ s : State, s.Quiet →
    (s.phase = Phase.loadw.code → s.fin = false →
      (∀ n : Nat, n < 115 → ∃ t, run n s = .next t ∧ t.busy = true) ∧
      (∃ t, run 115 s = .next t ∧ t.phase = Phase.idle.code)) ∧
    (s.phase = Phase.pad.code → s.fin = true → s.nbuf.toNat ≤ 55 →
      (∀ n : Nat, n < 116 → ∃ t, run n s = .next t ∧ t.busy = true) ∧
      (∃ t, run 116 s = .next t ∧ t.phase = Phase.done.code)) ∧
    (s.phase = Phase.pad.code → s.fin = true → 56 ≤ s.nbuf.toNat → s.nbuf.toNat ≤ 63 →
      (∀ n : Nat, n < 232 → ∃ t, run n s = .next t ∧ t.busy = true) ∧
      (∃ t, run 232 s = .next t ∧ t.phase = Phase.done.code))

/-- The blocks the machine loads are the blocks of the padded stream, in order, each at its exact step
and over the Hash State of the blocks before it (rules R68, R88). -/
def Obligations.LoadedBlocksAreThePaddedStream : Prop :=
  ∀ (m : List Byte) (s : State), m.length < 2 ^ 61 →
    s.phase = Phase.idle.code ∨ s.phase = Phase.done.code → s.inputs = messageInputs m →
    ∀ q : Nat, q < nblocks m.length →
      ∃ t, run (loadwStep m.length q) s = .next t ∧ t.phase = Phase.loadw.code ∧
        t.buf = blockAt (padMessage m) q ∧ t.h = hashStateAfter (padMessage m) q

/-- The top-level contract with its exact length (rules R91, R92): from any READY state, INIT, the
message's bytes and FINAL, each presented as soon as the last is accepted, reach DONE with no error flag
set and the digest SHA256(m) in as many steps as there are commands and, by rule R92, engine steps;
from reset the INIT is not needed (rule R119). -/
def Obligations.HashContract : Prop :=
  (∀ (m : List Byte) (s : State), m.length < 2 ^ 61 →
    s.phase = Phase.idle.code ∨ s.phase = Phase.done.code → s.inputs = messageInputs m →
    ∃ t, run (m.length + 2 + engineSteps m.length) s = .next t ∧
      t.phase = Phase.done.code ∧ t.errOp = false ∧ t.errSeq = false ∧ t.errLen = false ∧
      t.faulted = s.faulted ∧ t.inputs = [] ∧ t.mlen.toNat = m.length ∧
      t.h = messageHash m ∧ digestBytes t.h = sha256 m) ∧
  (∀ (m : List Byte), m.length < 2 ^ 61 →
    ∃ t, run (m.length + 1 + engineSteps m.length)
        { State.reset with inputs := wrsInputs m ++ [.command 0x0003] } = .next t ∧
      t.phase = Phase.done.code ∧ t.errOp = false ∧ t.errSeq = false ∧ t.errLen = false ∧
      t.faulted = false ∧ t.inputs = [] ∧ t.mlen.toNat = m.length ∧
      t.h = messageHash m ∧ digestBytes t.h = sha256 m)

/-- Every run that follows the protocol of rule R91, from any READY state or, without the INIT, from
reset: the commands decode to INIT, the WRB of each byte and FINAL in that order, whatever ignored DATA
bits INIT and FINAL carry, and between, before and after them the host may let any number of steps pass
or read any selector at any time. No step of the run stops, and it reaches DONE with no error flag set
and the digest SHA256(m). It stays so until the next INIT or reset. The inputs hold no polling loop: one
is reads and idle steps, which they may hold (assumption log 6). -/
def Obligations.EveryConformingRunHashesTheMessage : Prop :=
  (∀ (m : List Byte) (s : State), m.length < 2 ^ 61 →
    s.inputs.all HostInput.isCommandReadOrIdle = true →
    ((s.phase = Phase.idle.code ∨ s.phase = Phase.done.code) ∧
        (commandsOf s.inputs).map decodeCommand = .init :: (m.map .wrb ++ [.final])) ∨
      (s = { State.reset with inputs := s.inputs } ∧
        (commandsOf s.inputs).map decodeCommand = m.map .wrb ++ [.final]) →
    (∀ n : Nat, ∃ t, run n s = .next t) ∧
    ∃ n t, run n s = .next t ∧ t.inputs = [] ∧
      t.phase = Phase.done.code ∧ t.errOp = false ∧ t.errSeq = false ∧ t.errLen = false ∧
      t.faulted = s.faulted ∧ t.mlen.toNat = m.length ∧
      t.h = messageHash m ∧ digestBytes t.h = sha256 m) ∧
  (∀ s t : State, s.phase = Phase.done.code → step s = .next t →
    (∀ rest, s.inputs ≠ .reset :: rest) →
    (∀ w rest, s.inputs = .command w :: rest → w.extractLsb' 0 8 ≠ 0x01) →
      t.phase = Phase.done.code ∧ t.h = s.h)

/-- The polling loops end (rules R62, R92): WAIT from every state of the invariant, WAITDONE once FINAL
has been accepted. That a loop gives the engine one step between two reads is the model's fairness
(DESIGN CHOICE, assumption log 6). -/
def Obligations.PollingLoopsEnd : Prop :=
  ∀ (s : State) (rest : List HostInput), s.Inv →
    (s.inputs = .poll .notBusy :: rest →
      ∃ n t, n ≤ 465 ∧ run n s = .next t ∧ t.inputs = rest ∧
        (t.phase = Phase.idle.code ∨ t.phase = Phase.done.code)) ∧
    (s.inputs = .poll .done :: rest → s.fin = true ∨ s.phase = Phase.done.code →
      ∃ n t, n ≤ 465 ∧ run n s = .next t ∧ t.inputs = rest ∧ t.phase = Phase.done.code)

/-- The HASH macro's last eight reads are the words of the digest (rules R62, R90, R91). Its polling loop
gives the engine one step between two reads, the model's fairness (DESIGN CHOICE, assumption log 6). -/
def Obligations.HashMacroReadsTheDigest : Prop :=
  ∀ (m : List Byte) (s : State), m.length < 2 ^ 61 →
    s.phase = Phase.idle.code ∨ s.phase = Phase.done.code → s.inputs = hashInputs m →
    ∃ n t polls, run n s = .next t ∧ t.inputs = [] ∧ t.phase = Phase.done.code ∧
      t.reads = s.reads ++ polls ++
        (List.finRange 8).map fun j => (BitVec.ofNat 4 j.val, (messageHash m)[j])

/-- The digest is exactly 32 bytes, byte `4j + k` being `H[j][31 - 8k : 24 - 8k]` (rules R37, R90). -/
def Obligations.DigestIsBigEndian : Prop :=
  ∀ h : Vector Word 8, (digestBytes h).length = 32 ∧
    ∀ (j k : Nat) (hj : j < 8), k < 4 →
      (digestBytes h)[4 * j + k]? = some (h[j].extractLsb' (24 - 8 * k) 8)

/-! ## Hidden registers, reset and INIT, instances, the assembler -/

/-- No dead value of a hidden register ever reaches what is live or what the host sees (rules R30,
R89): states that differ only in dead values step to states that differ only in dead values, or stop
alike. -/
def Obligations.DeadValuesNeverMatter : Prop :=
  ∀ s t : State, s.LiveEq t →
    (∀ s', step s = .next s' → ∃ t', step t = .next t' ∧ s'.LiveEq t') ∧
    (∀ f, step s = .fault f → step t = .fault f)

/-- Reset and INIT leave the host the same observations, whatever it does afterwards (rule R118). -/
def Obligations.ResetAndInitAreObservedAlike : Prop :=
  ∀ (s a : State) (rest : List HostInput) (n : Nat),
    s.phase = Phase.idle.code ∨ s.phase = Phase.done.code →
    run (n + 1) { s with inputs := .reset :: rest } = .next a →
      ∃ b, run (n + 1) { s with inputs := .command 0x0001 :: rest } = .next b ∧
        a.reads = b.reads ∧ a.h = b.h ∧ a.nbuf = b.nbuf ∧ a.mlen = b.mlen ∧ a.phase = b.phase ∧
        a.idx = b.idx ∧ a.fin = b.fin ∧ a.lenpend = b.lenpend ∧ a.errOp = b.errOp ∧
        a.errSeq = b.errSeq ∧ a.errLen = b.errLen

/-- Instances share no register: a step of one leaves every other as it was, and depends on its own
state alone (rules R29, R114). -/
def Obligations.InstancesAreIndependent : Prop :=
  ∀ (sys sys' : System) (k : Fin sys.engines.length), sys.stepAt k = .next sys' →
    sys'.engines.length = sys.engines.length ∧
    (∃ t, step sys.engines[k] = .next t ∧ sys'.engines[k.val]? = some t) ∧
    (∀ j : Nat, j ≠ k.val → sys'.engines[j]? = sys.engines[j]?)

/-- What each line of the assembly language makes the host do (rule R61). -/
def Obligations.AssemblerLines : Prop :=
  AsmLine.expand .nop = .ok [.command 0x0000] ∧
  AsmLine.expand .init = .ok [.command 0x0001] ∧
  (∀ n : Nat, n ≤ 255 → AsmLine.expand (.wrb n) = .ok [.command (BitVec.ofNat 16 (n * 256 + 2))]) ∧
  (∀ n : Nat, 256 ≤ n → AsmLine.expand (.wrb n) = .error .outOfRange) ∧
  AsmLine.expand .final = .ok [.command 0x0003] ∧
  (∀ n : Nat, n ≤ 65535 → AsmLine.expand (.cmd n) = .ok [.command (BitVec.ofNat 16 n)]) ∧
  (∀ n : Nat, n ≤ 15 → AsmLine.expand (.rd n) = .ok [.read (BitVec.ofNat 4 n)])
end

