-- ==== Sys2Proof/Laws/Decode.lean ====
section
/-! SUPPORT. The fields of a command word, and what the command decoder reads from each opcode. -/

namespace Sys2Proof

@[simp] theorem opField_commandWord (d : Byte) (op : BitVec 8) : opField (commandWord d op) = op := by
  unfold opField commandWord
  apply BitVec.eq_of_getLsbD_eq
  intro i hi
  have h16 : i < 16 := by omega
  simp [hi, h16]

@[simp] theorem dataField_commandWord (d : Byte) (op : BitVec 8) : dataField (commandWord d op) = d := by
  unfold dataField commandWord
  apply BitVec.eq_of_getLsbD_eq
  intro i hi
  have h16 : 8 + i < 16 := by omega
  simp [hi, h16]

/-- A command word is its two fields (rule R53). -/
theorem commandWord_fields (w : CmdWord) : commandWord (dataField w) (opField w) = w := by
  unfold dataField opField commandWord
  apply BitVec.eq_of_getLsbD_eq
  intro i hi
  by_cases h : i < 8
  · simp [h, hi]
  · have h8 : i - 8 < 8 := by omega
    simp [h, h8, hi, show 8 + (i - 8) = i by omega]

theorem decodeCommand_nop {w : CmdWord} (h : opField w = 0x00) : decodeCommand w = .nop := by
  simp [decodeCommand, h]

theorem decodeCommand_init {w : CmdWord} (h : opField w = 0x01) : decodeCommand w = .init := by
  simp [decodeCommand, h]

theorem decodeCommand_wrb {w : CmdWord} (h : opField w = 0x02) :
    decodeCommand w = .wrb (dataField w) := by
  simp [decodeCommand, h]

theorem decodeCommand_final {w : CmdWord} (h : opField w = 0x03) : decodeCommand w = .final := by
  simp [decodeCommand, h]

theorem decodeCommand_illegal {w : CmdWord} (h : 4 ≤ (opField w).toNat) :
    decodeCommand w = .illegal w := by
  have ne : ∀ k : BitVec 8, k.toNat < 4 → opField w ≠ k := fun k hk e => by
    rw [e] at h
    omega
  unfold decodeCommand
  rw [if_neg (ne _ (by decide)), if_neg (ne _ (by decide)), if_neg (ne _ (by decide)),
    if_neg (ne _ (by decide))]

/-- The five cases of an opcode (rules R54, R57). -/
theorem opField_cases (w : CmdWord) :
    opField w = 0x00 ∨ opField w = 0x01 ∨ opField w = 0x02 ∨ opField w = 0x03 ∨ 4 ≤ (opField w).toNat := by
  have all : ∀ v : BitVec 8, v = 0x00 ∨ v = 0x01 ∨ v = 0x02 ∨ v = 0x03 ∨ 4 ≤ v.toNat := by decide
  exact all _

/-- The micro-operation a PHASE code selects is one of the seven, at its own code (rules R59, R85). -/
theorem decodePhase_ok {c : PhaseCode} {i : Instr} (h : decodePhase c = .ok i) :
    (i = .pad ∧ c = Phase.pad.code) ∨ (i = .pad2 ∧ c = Phase.pad2.code) ∨
    (i = .loadw ∧ c = Phase.loadw.code) ∨ (i = .sched ∧ c = Phase.sched.code) ∨
    (i = .winit ∧ c = Phase.winit.code) ∨ (i = .round ∧ c = Phase.round.code) ∨
    (i = .fold ∧ c = Phase.fold.code) := by
  have all : ∀ c : PhaseCode, decodePhase c = .error .noMicroOperation ∨
      decodePhase c = .error .unreachablePhase ∨
      (decodePhase c = .ok .pad ∧ c = Phase.pad.code) ∨ (decodePhase c = .ok .pad2 ∧ c = Phase.pad2.code) ∨
      (decodePhase c = .ok .loadw ∧ c = Phase.loadw.code) ∨
      (decodePhase c = .ok .sched ∧ c = Phase.sched.code) ∨
      (decodePhase c = .ok .winit ∧ c = Phase.winit.code) ∨
      (decodePhase c = .ok .round ∧ c = Phase.round.code) ∨
      (decodePhase c = .ok .fold ∧ c = Phase.fold.code) := by decide
  rcases all c with e | e | ⟨e, hc⟩ | ⟨e, hc⟩ | ⟨e, hc⟩ | ⟨e, hc⟩ | ⟨e, hc⟩ | ⟨e, hc⟩ | ⟨e, hc⟩
  all_goals rw [e] at h
  all_goals cases h
  all_goals simp [hc]

end Sys2Proof
end

