-- ==== Sys2Proof/Laws/Operands.lean ====
section
/-! SUPPORT. The phase codes, and what each block image holds at an index. -/

namespace Sys2Proof.Machine

/-! ## Phase codes (rule R20) -/

@[simp] theorem ofCode_code (p : Phase) : Phase.ofCode p.code = some p := by cases p <;> rfl

theorem code_injective {p q : Phase} (h : p.code = q.code) : p = q :=
  Option.some.inj (by rw [← ofCode_code p, ← ofCode_code q, h])

@[simp] theorem code_eq_iff (p q : Phase) : p.code = q.code ↔ p = q :=
  ⟨code_injective, fun h => by rw [h]⟩

/-- Every code is a named phase's or one of 9..15. -/
theorem code_cases (c : PhaseCode) : (∃ p : Phase, c = p.code) ∨ (9 ≤ c.toNat ∧ Phase.ofCode c = none) := by
  have all : ∀ c : PhaseCode,
      (c = Phase.idle.code ∨ c = Phase.pad.code ∨ c = Phase.pad2.code ∨ c = Phase.loadw.code ∨
        c = Phase.sched.code ∨ c = Phase.winit.code ∨ c = Phase.round.code ∨ c = Phase.fold.code ∨
        c = Phase.done.code) ∨ (9 ≤ c.toNat ∧ Phase.ofCode c = none) := by decide
  rcases all c with (h | h | h | h | h | h | h | h | h) | h
  all_goals first | exact .inl ⟨_, h⟩ | exact .inr h

theorem ofCode_eq_some {c : PhaseCode} {p : Phase} (h : Phase.ofCode c = some p) : c = p.code := by
  rcases code_cases c with ⟨q, rfl⟩ | ⟨-, h'⟩
  · rw [ofCode_code] at h
    rw [Option.some.inj h]
  · rw [h'] at h
    cases h

theorem code_toNat_le (p : Phase) : p.code.toNat ≤ 8 := by cases p <;> decide

/-! ## READY (rule R20) -/

theorem ready_iff (s : State) :
    s.ready = true ↔ s.phase = Phase.idle.code ∨ s.phase = Phase.done.code := by
  simp [State.ready]

theorem busy_iff (s : State) :
    s.busy = true ↔ s.phase ≠ Phase.idle.code ∧ s.phase ≠ Phase.done.code := by
  simp [State.busy, State.ready]

/-! ## Block images at an index -/

theorem getElem_padBuf (buf : Vector Byte 64) (n : Nat) (mlen : BitVec 61) (k : Nat) (hk : k < 64) :
    (padBuf buf n mlen)[k] =
      if k < n then buf[k] else if k = n then 0x80
      else if n ≤ 55 ∧ 56 ≤ k then be64byte (lenField mlen) (k - 56) else 0x00 := by
  simp [padBuf]

theorem getElem_padBuf2 (mlen : BitVec 61) (k : Nat) (hk : k < 64) :
    (padBuf2 mlen)[k] = if k < 56 then 0x00 else be64byte (lenField mlen) (k - 56) := by
  simp [padBuf2]

theorem getElem_loadWords_low (w : Vector Word 64) (buf : Vector Byte 64) (j : Nat) (hj : j < 16) :
    (loadWords w buf)[j] = be32 buf[4 * j] buf[4 * j + 1] buf[4 * j + 2] buf[4 * j + 3] := by
  simp [loadWords, hj, blockWord]

theorem getElem_loadWords_high (w : Vector Word 64) (buf : Vector Byte 64) (j : Nat) (hj : j < 64)
    (h : 16 ≤ j) : (loadWords w buf)[j] = w[j] := by
  simp [loadWords, Nat.not_lt.mpr h]

theorem getElem_foldH (h v : Vector Word 8) (j : Nat) (hj : j < 8) : (foldH h v)[j] = h[j] + v[j] := by
  simp [foldH]

theorem foldH_roundsUpTo (s : Vector Word 8) (w : Vector Word 64) :
    foldH s (roundsUpTo s w 64) = compress s w := rfl

end Sys2Proof.Machine
end

