-- ==== Sys2Proof/Laws/State.lean ====
section
/-! SUPPORT. One lemma per field for each named update of the state, so that no proof unfolds one. -/

namespace Sys2Proof.Machine

/-! ## Raising a flag (rule R103) -/

@[simp] theorem State.raise_h (s : State) (e : ErrFlag) : (s.raise e).h = s.h := by cases e <;> rfl
@[simp] theorem State.raise_v (s : State) (e : ErrFlag) : (s.raise e).v = s.v := by cases e <;> rfl
@[simp] theorem State.raise_w (s : State) (e : ErrFlag) : (s.raise e).w = s.w := by cases e <;> rfl
@[simp] theorem State.raise_buf (s : State) (e : ErrFlag) : (s.raise e).buf = s.buf := by cases e <;> rfl
@[simp] theorem State.raise_nbuf (s : State) (e : ErrFlag) : (s.raise e).nbuf = s.nbuf := by cases e <;> rfl
@[simp] theorem State.raise_mlen (s : State) (e : ErrFlag) : (s.raise e).mlen = s.mlen := by cases e <;> rfl
@[simp] theorem State.raise_phase (s : State) (e : ErrFlag) : (s.raise e).phase = s.phase := by cases e <;> rfl
@[simp] theorem State.raise_idx (s : State) (e : ErrFlag) : (s.raise e).idx = s.idx := by cases e <;> rfl
@[simp] theorem State.raise_fin (s : State) (e : ErrFlag) : (s.raise e).fin = s.fin := by cases e <;> rfl
@[simp] theorem State.raise_lenpend (s : State) (e : ErrFlag) : (s.raise e).lenpend = s.lenpend := by cases e <;> rfl
@[simp] theorem State.raise_errOp (s : State) (e : ErrFlag) :
    (s.raise e).errOp = (s.errOp || decide (e = .op)) := by cases e <;> simp [State.raise]
@[simp] theorem State.raise_errSeq (s : State) (e : ErrFlag) :
    (s.raise e).errSeq = (s.errSeq || decide (e = .seq)) := by cases e <;> simp [State.raise]
@[simp] theorem State.raise_errLen (s : State) (e : ErrFlag) :
    (s.raise e).errLen = (s.errLen || decide (e = .len)) := by cases e <;> simp [State.raise]
@[simp] theorem State.raise_faulted (s : State) (e : ErrFlag) : (s.raise e).faulted = true := by cases e <;> rfl
@[simp] theorem State.raise_inputs (s : State) (e : ErrFlag) : (s.raise e).inputs = s.inputs := by cases e <;> rfl
@[simp] theorem State.raise_reads (s : State) (e : ErrFlag) : (s.raise e).reads = s.reads := by cases e <;> rfl

/-! ## INIT (rule R97) -/

@[simp] theorem State.startHash_h (s : State) : s.startHash.h = h0Rom := rfl
@[simp] theorem State.startHash_v (s : State) : s.startHash.v = s.v := rfl
@[simp] theorem State.startHash_w (s : State) : s.startHash.w = s.w := rfl
@[simp] theorem State.startHash_buf (s : State) : s.startHash.buf = s.buf := rfl
@[simp] theorem State.startHash_nbuf (s : State) : s.startHash.nbuf = 0 := rfl
@[simp] theorem State.startHash_mlen (s : State) : s.startHash.mlen = 0 := rfl
@[simp] theorem State.startHash_phase (s : State) : s.startHash.phase = Phase.idle.code := rfl
@[simp] theorem State.startHash_idx (s : State) : s.startHash.idx = 0 := rfl
@[simp] theorem State.startHash_fin (s : State) : s.startHash.fin = false := rfl
@[simp] theorem State.startHash_lenpend (s : State) : s.startHash.lenpend = false := rfl
@[simp] theorem State.startHash_errOp (s : State) : s.startHash.errOp = false := rfl
@[simp] theorem State.startHash_errSeq (s : State) : s.startHash.errSeq = false := rfl
@[simp] theorem State.startHash_errLen (s : State) : s.startHash.errLen = false := rfl
@[simp] theorem State.startHash_faulted (s : State) : s.startHash.faulted = s.faulted := rfl
@[simp] theorem State.startHash_inputs (s : State) : s.startHash.inputs = s.inputs := rfl
@[simp] theorem State.startHash_reads (s : State) : s.startHash.reads = s.reads := rfl

/-! ## The reset step (rule R117) -/

@[simp] theorem State.resetStep_h (s : State) : s.resetStep.h = State.reset.h := rfl
@[simp] theorem State.resetStep_v (s : State) : s.resetStep.v = State.reset.v := rfl
@[simp] theorem State.resetStep_w (s : State) : s.resetStep.w = State.reset.w := rfl
@[simp] theorem State.resetStep_buf (s : State) : s.resetStep.buf = State.reset.buf := rfl
@[simp] theorem State.resetStep_nbuf (s : State) : s.resetStep.nbuf = State.reset.nbuf := rfl
@[simp] theorem State.resetStep_mlen (s : State) : s.resetStep.mlen = State.reset.mlen := rfl
@[simp] theorem State.resetStep_phase (s : State) : s.resetStep.phase = State.reset.phase := rfl
@[simp] theorem State.resetStep_idx (s : State) : s.resetStep.idx = State.reset.idx := rfl
@[simp] theorem State.resetStep_fin (s : State) : s.resetStep.fin = State.reset.fin := rfl
@[simp] theorem State.resetStep_lenpend (s : State) : s.resetStep.lenpend = State.reset.lenpend := rfl
@[simp] theorem State.resetStep_errOp (s : State) : s.resetStep.errOp = State.reset.errOp := rfl
@[simp] theorem State.resetStep_errSeq (s : State) : s.resetStep.errSeq = State.reset.errSeq := rfl
@[simp] theorem State.resetStep_errLen (s : State) : s.resetStep.errLen = State.reset.errLen := rfl
@[simp] theorem State.resetStep_faulted (s : State) : s.resetStep.faulted = s.faulted := rfl
@[simp] theorem State.resetStep_inputs (s : State) : s.resetStep.inputs = s.inputs := rfl
@[simp] theorem State.resetStep_reads (s : State) : s.resetStep.reads = s.reads := rfl

/-! ## A host read (rule R101) -/

@[simp] theorem State.hostRead_h (s : State) (sel : ReadSel) : (s.hostRead sel).h = s.h := rfl
@[simp] theorem State.hostRead_v (s : State) (sel : ReadSel) : (s.hostRead sel).v = s.v := rfl
@[simp] theorem State.hostRead_w (s : State) (sel : ReadSel) : (s.hostRead sel).w = s.w := rfl
@[simp] theorem State.hostRead_buf (s : State) (sel : ReadSel) : (s.hostRead sel).buf = s.buf := rfl
@[simp] theorem State.hostRead_nbuf (s : State) (sel : ReadSel) : (s.hostRead sel).nbuf = s.nbuf := rfl
@[simp] theorem State.hostRead_mlen (s : State) (sel : ReadSel) : (s.hostRead sel).mlen = s.mlen := rfl
@[simp] theorem State.hostRead_phase (s : State) (sel : ReadSel) : (s.hostRead sel).phase = s.phase := rfl
@[simp] theorem State.hostRead_idx (s : State) (sel : ReadSel) : (s.hostRead sel).idx = s.idx := rfl
@[simp] theorem State.hostRead_fin (s : State) (sel : ReadSel) : (s.hostRead sel).fin = s.fin := rfl
@[simp] theorem State.hostRead_lenpend (s : State) (sel : ReadSel) : (s.hostRead sel).lenpend = s.lenpend := rfl
@[simp] theorem State.hostRead_errOp (s : State) (sel : ReadSel) : (s.hostRead sel).errOp = s.errOp := rfl
@[simp] theorem State.hostRead_errSeq (s : State) (sel : ReadSel) : (s.hostRead sel).errSeq = s.errSeq := rfl
@[simp] theorem State.hostRead_errLen (s : State) (sel : ReadSel) : (s.hostRead sel).errLen = s.errLen := rfl
@[simp] theorem State.hostRead_faulted (s : State) (sel : ReadSel) : (s.hostRead sel).faulted = s.faulted := rfl
@[simp] theorem State.hostRead_inputs (s : State) (sel : ReadSel) : (s.hostRead sel).inputs = s.inputs := rfl
@[simp] theorem State.hostRead_reads (s : State) (sel : ReadSel) : (s.hostRead sel).reads = s.reads ++ [(sel, s.readMap sel)] := rfl

/-! ## An accepted message byte (rule R98) -/

@[simp] theorem State.appendByte_h (s : State) (d : Byte) (n : Nat) (hn : n < 64) :
    (s.appendByte d n hn).h = s.h := rfl
@[simp] theorem State.appendByte_v (s : State) (d : Byte) (n : Nat) (hn : n < 64) :
    (s.appendByte d n hn).v = s.v := rfl
@[simp] theorem State.appendByte_w (s : State) (d : Byte) (n : Nat) (hn : n < 64) :
    (s.appendByte d n hn).w = s.w := rfl
@[simp] theorem State.appendByte_buf (s : State) (d : Byte) (n : Nat) (hn : n < 64) :
    (s.appendByte d n hn).buf = s.buf.set n d := rfl
@[simp] theorem State.appendByte_nbuf (s : State) (d : Byte) (n : Nat) (hn : n < 64) :
    (s.appendByte d n hn).nbuf = s.nbuf + 1 := rfl
@[simp] theorem State.appendByte_mlen (s : State) (d : Byte) (n : Nat) (hn : n < 64) :
    (s.appendByte d n hn).mlen = s.mlen + 1 := rfl
@[simp] theorem State.appendByte_phase (s : State) (d : Byte) (n : Nat) (hn : n < 64) :
    (s.appendByte d n hn).phase = (if n + 1 = 64 then Phase.loadw.code else s.phase) := rfl
@[simp] theorem State.appendByte_idx (s : State) (d : Byte) (n : Nat) (hn : n < 64) :
    (s.appendByte d n hn).idx = s.idx := rfl
@[simp] theorem State.appendByte_fin (s : State) (d : Byte) (n : Nat) (hn : n < 64) :
    (s.appendByte d n hn).fin = s.fin := rfl
@[simp] theorem State.appendByte_lenpend (s : State) (d : Byte) (n : Nat) (hn : n < 64) :
    (s.appendByte d n hn).lenpend = s.lenpend := rfl
@[simp] theorem State.appendByte_errOp (s : State) (d : Byte) (n : Nat) (hn : n < 64) :
    (s.appendByte d n hn).errOp = s.errOp := rfl
@[simp] theorem State.appendByte_errSeq (s : State) (d : Byte) (n : Nat) (hn : n < 64) :
    (s.appendByte d n hn).errSeq = s.errSeq := rfl
@[simp] theorem State.appendByte_errLen (s : State) (d : Byte) (n : Nat) (hn : n < 64) :
    (s.appendByte d n hn).errLen = s.errLen := rfl
@[simp] theorem State.appendByte_faulted (s : State) (d : Byte) (n : Nat) (hn : n < 64) :
    (s.appendByte d n hn).faulted = s.faulted := rfl
@[simp] theorem State.appendByte_inputs (s : State) (d : Byte) (n : Nat) (hn : n < 64) :
    (s.appendByte d n hn).inputs = s.inputs := rfl
@[simp] theorem State.appendByte_reads (s : State) (d : Byte) (n : Nat) (hn : n < 64) :
    (s.appendByte d n hn).reads = s.reads := rfl

end Sys2Proof.Machine
end

