-- ==== Sys2Proof/Laws/Exec.lean ====
section
/-! SUPPORT. What each shared operation and each meaning can answer, once: the handshake, and for every
meaning that can stop, exactly when it does not. -/

namespace Sys2Proof.Machine

/-- The handshake in a READY state is the command's effect (rule R95). -/
theorem accept_of_ready {s : State} (hr : s.ready = true) (effect : Result) : s.accept effect = effect := by
  simp [State.accept, hr]

/-- What the handshake can answer (rules R52, R106). -/
theorem accept_next {s t : State} {effect : Result} (h : s.accept effect = .next t) :
    (s.ready = true ∧ effect = .next t) ∨ (s.ready = false ∧ t = s) := by
  unfold State.accept at h
  split at h
  · exact .inl ⟨‹_›, h⟩
  · split at h
    · exact .inr ⟨by simpa using ‹¬ s.ready = true›, by injection h with h; exact h.symm⟩
    · cases h

/-- When PAD answers a next state (rule R65). -/
theorem execPad_next {s t : State} :
    execPad s = .next t ↔ s.nbuf.toNat < 64 ∧
      t = { s with
        buf := padBuf s.buf s.nbuf.toNat s.mlen, lenpend := decide (56 ≤ s.nbuf.toNat), nbuf := 64
        phase := Phase.loadw.code } := by
  unfold execPad
  split <;> simp_all [eq_comm]

/-- When SCHED answers a next state (rule R73). -/
theorem execSched_next {s t : State} :
    execSched s = .next t ↔ 16 ≤ s.idx.toNat ∧
      t = { s with
        w := s.w.set s.idx.toNat (schedWord s.w s.idx.toNat s.idx.isLt) s.idx.isLt
        idx := s.idx + 1
        phase := if s.idx = 63 then Phase.winit.code else s.phase } := by
  unfold execSched
  split <;> simp_all [eq_comm]

/-- What WRB can do where it is accepted (rules R98, R105). -/
theorem execWrb_next {s t : State} {d : Byte} (h : execWrb d s = .next t) :
    (s.ready = false ∧ t = s) ∨
    (s.phase = Phase.done.code ∧ t = s.raise .seq) ∨
    (s.phase = Phase.idle.code ∧ s.mlen = maxMlen ∧ t = s.raise .len) ∨
    (s.phase = Phase.idle.code ∧ s.mlen ≠ maxMlen ∧
      ∃ hn : s.nbuf.toNat < 64, t = s.appendByte d s.nbuf.toNat hn) := by
  rcases accept_next h with ⟨hr, h⟩ | h
  · right
    split at h
    · injection h with h
      exact .inl ⟨‹_›, h.symm⟩
    · have hi := ((ready_iff s).mp hr).resolve_right ‹_›
      split at h
      · injection h with h
        exact .inr (.inl ⟨hi, ‹_›, h.symm⟩)
      · split at h
        · injection h with h
          exact .inr (.inr ⟨hi, ‹_›, ‹_›, h.symm⟩)
        · cases h
  · exact .inl h

/-- What FINAL can do (rule R99). -/
theorem execFinal_next {s t : State} (h : execFinal s = .next t) :
    (s.ready = false ∧ t = s) ∨
    (s.phase = Phase.done.code ∧ t = s.raise .seq) ∨
    (s.phase = Phase.idle.code ∧ t = { s with fin := true, phase := Phase.pad.code }) := by
  rcases accept_next h with ⟨hr, h⟩ | h
  · right
    split at h
    · injection h with h
      exact .inl ⟨‹_›, h.symm⟩
    · injection h with h
      exact .inr ⟨((ready_iff s).mp hr).resolve_right ‹_›, h.symm⟩
  · exact .inl h

/-- What INIT can do (rule R97). -/
theorem execInit_next {s t : State} (h : execInit s = .next t) :
    (s.ready = false ∧ t = s) ∨ (s.ready = true ∧ t = s.startHash) := by
  rcases accept_next h with ⟨hr, h⟩ | h
  · injection h with h
    exact .inr ⟨hr, h.symm⟩
  · exact .inl h

/-- What an illegal command can do (rule R100). -/
theorem execIllegal_next {s t : State} {w : CmdWord} (h : execIllegal w s = .next t) :
    (s.ready = false ∧ t = s) ∨ (s.ready = true ∧ t = s.raise .op) := by
  rcases accept_next h with ⟨hr, h⟩ | h
  · injection h with h
    exact .inr ⟨hr, h.symm⟩
  · exact .inl h

/-- NOP changes nothing wherever it answers a next state (rule R96). -/
theorem execNop_next {s t : State} (h : execNop s = .next t) : t = s := by
  rcases accept_next h with ⟨-, h⟩ | ⟨-, h⟩
  · injection h with h
    exact h.symm
  · exact h

/-- What an accepted command can do, by its opcode (rules R95 to R100). -/
theorem exec_command_next {s t : State} {w : CmdWord} (hr : s.ready = true)
    (h : exec (decodeCommand w) s = .next t) :
    (opField w = 0x00 ∧ t = s) ∨
    (opField w = 0x01 ∧ t = s.startHash) ∨
    (opField w = 0x02 ∧
      ((s.phase = Phase.done.code ∧ t = s.raise .seq) ∨
       (s.phase = Phase.idle.code ∧ s.mlen = maxMlen ∧ t = s.raise .len) ∨
       (s.phase = Phase.idle.code ∧ s.mlen ≠ maxMlen ∧
         ∃ hn : s.nbuf.toNat < 64, t = s.appendByte (dataField w) s.nbuf.toNat hn))) ∨
    (opField w = 0x03 ∧
      ((s.phase = Phase.done.code ∧ t = s.raise .seq) ∨
       (s.phase = Phase.idle.code ∧ t = { s with fin := true, phase := Phase.pad.code }))) ∨
    (4 ≤ (opField w).toNat ∧ t = s.raise .op) := by
  have nr : ¬ s.ready = false := by simp [hr]
  rcases opField_cases w with e | e | e | e | e
  · rw [decodeCommand_nop e] at h
    exact .inl ⟨e, execNop_next h⟩
  · rw [decodeCommand_init e] at h
    rcases execInit_next h with h | h
    · exact absurd h.1 nr
    · exact .inr (.inl ⟨e, h.2⟩)
  · rw [decodeCommand_wrb e] at h
    rcases execWrb_next h with h | h
    · exact absurd h.1 nr
    · exact .inr (.inr (.inl ⟨e, h⟩))
  · rw [decodeCommand_final e] at h
    rcases execFinal_next h with h | h
    · exact absurd h.1 nr
    · exact .inr (.inr (.inr (.inl ⟨e, h⟩)))
  · rw [decodeCommand_illegal e] at h
    rcases execIllegal_next (w := w) h with h | h
    · exact absurd h.1 nr
    · exact .inr (.inr (.inr (.inr ⟨e, h.2⟩)))

/-- `MLEN` is at its limit exactly at 2^61 - 1 bytes (rule R98). -/
theorem eq_maxMlen_iff (m : BitVec 61) : m = maxMlen ↔ m.toNat = 2 ^ 61 - 1 := by
  rw [← BitVec.toNat_inj]
  rfl

end Sys2Proof.Machine
end

