-- ==== Sys2Proof/Laws/Step.lean ====
section
/-! SUPPORT. What a step does for each thing the host can present, and how runs of steps compose. -/

namespace Sys2Proof.Machine

/-- Putting back what the host presents. -/
theorem with_inputs_self {s : State} {l : List HostInput} (h : s.inputs = l) :
    { s with inputs := l } = s := by
  subst h
  rfl

@[simp] theorem perform_run (i : Instr) (s : State) : perform (.run i s) = exec i s := rfl

@[simp] theorem perform_hold (s : State) : perform (.hold s) = .next s := rfl

@[simp] theorem perform_reset (s : State) : perform (.reset s) = .next s.resetStep := rfl

@[simp] theorem perform_unreachable : perform .unreachable = .fault .unreachablePhase := rfl

/-- While the host leaves the step to the engine, PHASE selects it (rule R85). -/
theorem fetch_of_quiet {s : State} (hq : s.Quiet) (hb : s.ready = false) :
    s.fetch = s.fetchEngine := by
  rcases hq with h | ⟨w, rest, h⟩
  · simp [State.fetch, h]
  · simp [State.fetch, h, hb]

/-- The step of a named micro-operation's phase (rules R59, R85). -/
theorem step_of_decodePhase {s : State} {i : Instr} (hq : s.Quiet) (hi : decodePhase s.phase = .ok i) :
    step s = exec i s := by
  have hb : s.ready = false := by
    rw [← Bool.not_eq_true, ready_iff]
    rintro (h | h) <;> rw [h] at hi <;> cases hi
  simp [step, fetch_of_quiet hq hb, State.fetchEngine, hi]

/-- The step that accepts a command (rules R52, R95). -/
theorem step_of_command {s : State} {w : CmdWord} {rest : List HostInput} (hr : s.ready = true)
    (h : s.inputs = .command w :: rest) :
    step s = exec (decodeCommand w) { s with inputs := rest } := by
  simp [step, State.fetch, h, hr]

/-- The step of a host read (rule R101). -/
theorem step_of_read {s : State} {sel : ReadSel} {rest : List HostInput}
    (h : s.inputs = .read sel :: rest) : step s = exec (.rd sel) { s with inputs := rest } := by
  simp [step, State.fetch, h]

/-- One iteration of a polling loop (rule R62). -/
theorem step_of_poll {s : State} {c : PollCond} {rest : List HostInput}
    (h : s.inputs = .poll c :: rest) :
    step s = exec (.rd 8) { s with inputs := s.pollRest c rest } := by
  simp [step, State.fetch, h]

/-- The reset step (rule R117). -/
theorem step_of_reset {s : State} {rest : List HostInput} (h : s.inputs = .reset :: rest) :
    step s = .next (State.resetStep { s with inputs := rest }) := by
  simp [step, State.fetch, h]

/-- With the host idle, the step is the one the engine takes by itself. -/
theorem step_of_idle {s : State} {rest : List HostInput} (h : s.inputs = .idle :: rest) :
    step s = perform (State.fetchEngine { s with inputs := rest }) := by
  simp [step, State.fetch, h]

/-- Everything a step that answers a next state can have done (rule R13). -/
theorem step_next {s t : State} (h : step s = .next t) :
    (∃ rest, s.inputs = .reset :: rest ∧ t = State.resetStep { s with inputs := rest }) ∨
    (∃ w rest, s.inputs = .command w :: rest ∧ s.ready = true ∧
      exec (decodeCommand w) { s with inputs := rest } = .next t) ∨
    (∃ sel rest, t = State.hostRead { s with inputs := rest } sel) ∨
    (∃ rest, s.ready = true ∧ t = { s with inputs := rest }) ∨
    (∃ i rest, decodePhase s.phase = .ok i ∧ exec i { s with inputs := rest } = .next t) := by
  have engine : ∀ rest, perform (State.fetchEngine { s with inputs := rest }) = .next t →
      (∃ rest, s.ready = true ∧ t = { s with inputs := rest }) ∨
      (∃ i rest, decodePhase s.phase = .ok i ∧ exec i { s with inputs := rest } = .next t) := by
    intro rest h
    unfold State.fetchEngine at h
    split at h
    · exact .inr ⟨_, _, ‹_›, h⟩
    · refine .inl ⟨rest, ?_, by injection h with h; exact h.symm⟩
      rename_i hd
      rw [ready_iff]
      rcases code_cases s.phase with ⟨p, hp⟩ | ⟨-, hp⟩
      · cases p <;> simp_all [decodePhase]
      · simp [decodePhase, hp] at hd
    · cases h
  match hi : s.inputs with
  | [] =>
    have hf : s.fetch = State.fetchEngine { s with inputs := [] } := by
      rw [with_inputs_self hi]
      simp [State.fetch, hi]
    simp only [step, hf] at h
    exact .inr (.inr (.inr (engine _ h)))
  | .idle :: rest =>
    rw [step_of_idle hi] at h
    exact .inr (.inr (.inr (engine _ h)))
  | .reset :: rest =>
    rw [step_of_reset hi] at h
    injection h with h
    exact .inl ⟨rest, rfl, h.symm⟩
  | .read sel :: rest =>
    rw [step_of_read hi] at h
    injection h with h
    exact .inr (.inr (.inl ⟨_, _, h.symm⟩))
  | .poll c :: rest =>
    rw [step_of_poll hi] at h
    injection h with h
    exact .inr (.inr (.inl ⟨_, _, h.symm⟩))
  | .command w :: rest =>
    by_cases hr : s.ready = true
    · rw [step_of_command hr hi] at h
      exact .inr (.inl ⟨w, rest, rfl, hr, h⟩)
    · have hf : s.fetch = State.fetchEngine { s with inputs := .command w :: rest } := by
        rw [with_inputs_self hi]
        simp [State.fetch, hi, hr]
      simp only [step, hf] at h
      exact .inr (.inr (.inr (engine _ h)))

/-! ## Runs -/

@[simp] theorem run_zero (s : State) : run 0 s = .next s := rfl

theorem run_succ {s t : State} (h : step s = .next t) (n : Nat) : run (n + 1) s = run n t := by
  simp [run, h]

@[simp] theorem run_one (s : State) : run 1 s = step s := by
  simp only [run]
  split <;> simp_all

/-- Runs compose. -/
theorem run_add {s t : State} {m : Nat} (h : run m s = .next t) (n : Nat) :
    run (m + n) s = run n t := by
  induction m generalizing s with
  | zero =>
    injection h with h
    simp [h]
  | succ m ih =>
    rw [Nat.add_right_comm]
    simp only [run] at h ⊢
    split at h
    · exact ih h
    · cases h
    · cases h

end Sys2Proof.Machine
end

