-- ==== Sys2Proof/Laws/Block.lean ====
section
/-! SUPPORT. The two loops of a block: what `n` SCHED steps and what `n` ROUND steps do, while the host
leaves the engine alone. -/

namespace Sys2Proof.Machine

/-- The host's side decides whether a state is quiet. -/
theorem quiet_of_inputs {s t : State} (h : s.Quiet) (e : t.inputs = s.inputs) : t.Quiet := by
  unfold State.Quiet
  rw [e]
  exact h

/-- One micro-operation's step from a state with the same host side as a quiet one. -/
theorem step_micro {s t u : State} {i : Instr} (hq : s.Quiet) (e : t.inputs = s.inputs)
    (hi : decodePhase t.phase = .ok i) (h : exec i t = .next u) : step t = .next u := by
  rw [step_of_decodePhase (quiet_of_inputs hq e) hi, h]

/-- `W` after `n` SCHED steps from index 16 (rule R73). -/
def schedSteps (w : Vector Word 64) : Nat → Vector Word 64
  | 0 => w
  | n + 1 =>
    if hi : 16 + n < 64 then (schedSteps w n).set (16 + n) (schedWord (schedSteps w n) (16 + n) hi)
    else schedSteps w n

theorem set_schedWord (w : Vector Word 64) (i n : Nat) (hi : i < 64) (e : i = n) (hn : n < 64) :
    w.set i (schedWord w i hi) hi = w.set n (schedWord w n hn) hn := by
  subst e
  rfl

/-- What `n` ≤ 48 SCHED steps do (rules R73, R87). -/
theorem run_sched (s : State) (hq : s.Quiet) (w : Vector Word 64) (n : Nat) (hn : n ≤ 48) :
    run n { s with w := w, idx := 16, phase := Phase.sched.code } =
      .next { s with
        w := schedSteps w n
        idx := BitVec.ofNat 6 (16 + n)
        phase := if n = 48 then Phase.winit.code else Phase.sched.code } := by
  induction n with
  | zero => simp [schedSteps]
  | succ n ih =>
    have h48 : n ≠ 48 := by omega
    have hmod : (16 + n) % 64 = 16 + n := Nat.mod_eq_of_lt (by omega)
    rw [run_add (ih (by omega)) 1, run_one]
    refine step_micro (i := .sched) hq rfl (by simp only [if_neg h48]; rfl) (execSched_next.mpr ⟨?_, ?_⟩)
    · simp [hmod]
    · have next : BitVec.ofNat 6 (16 + n) + 1 = BitVec.ofNat 6 (16 + (n + 1)) :=
        BitVec.eq_of_toNat_eq (by simp; omega)
      have last : (BitVec.ofNat 6 (16 + n) = 63) ↔ n + 1 = 48 := by
        rw [← BitVec.toNat_inj]
        simp [hmod]
        omega
      simp only [next, last, if_neg h48, schedSteps, dif_pos (show 16 + n < 64 by omega)]
      congr 1
      exact (set_schedWord (schedSteps w n) _ (16 + n) _ (by simp [hmod]) (by omega)).symm

theorem roundV_at (v : Vector Word 8) (w : Vector Word 64) (i n : Nat) (hi : i < 64) (e : i = n)
    (hn : n < 64) : roundV v kRom[i] w[i] = roundV v kRom[n] w[n] := by
  subst e
  rfl

/-- What `n` ≤ 64 ROUND steps do (rules R81, R83, R87). -/
theorem run_round (s : State) (hq : s.Quiet) (n : Nat) (hn : n ≤ 64) :
    run n { s with v := s.h, idx := 0, phase := Phase.round.code } =
      .next { s with
        v := roundsUpTo s.h s.w n
        idx := BitVec.ofNat 6 n
        phase := if n = 64 then Phase.fold.code else Phase.round.code } := by
  induction n with
  | zero => simp [roundsUpTo]
  | succ n ih =>
    have h64 : n ≠ 64 := by omega
    have hmod : n % 64 = n := Nat.mod_eq_of_lt (by omega)
    rw [run_add (ih (by omega)) 1, run_one]
    refine step_micro (i := .round) hq rfl (by simp only [if_neg h64]; rfl) ?_
    have next : BitVec.ofNat 6 n + 1 = BitVec.ofNat 6 (n + 1) := BitVec.eq_of_toNat_eq (by simp)
    have last : (BitVec.ofNat 6 n = 63) ↔ n + 1 = 64 := by
      rw [← BitVec.toNat_inj]
      simp [hmod]
    simp only [exec, execRound, next, last, if_neg h64, roundsUpTo, dif_pos (show n < 64 by omega)]
    congr 2
    exact roundV_at _ _ _ n _ (by simp [hmod]) (by omega)

end Sys2Proof.Machine
end

