-- ==== Sys2Proof/Laws/PerInstr.lean ====
section
/-! SUPPORT. Per operation: its encoding lies in its own row of the opcode table (rules R54, R57, R58,
R59). -/

namespace Sys2Proof.Laws.Row

/-- A well-formed operation's encoding satisfies the `match`/`mask` of its row. -/
def Statement (i : Instr) : Prop := i.WellFormed → rowMatches i (encode i) = true

theorem nop : Statement .nop := fun _ => by decide

theorem init : Statement .init := fun _ => by decide

theorem wrb (d : Byte) : Statement (.wrb d) := fun _ => by
  revert d
  decide

theorem final : Statement .final := fun _ => by decide

theorem illegal (w : CmdWord) : Statement (.illegal w) := fun h => by
  have low : (w &&& 0x00FF).toNat = (w.extractLsb' 0 8).toNat := by
    rw [BitVec.toNat_and, BitVec.extractLsb'_toNat, Nat.shiftRight_zero]
    exact Nat.and_two_pow_sub_one_eq_mod _ 8
  have h' : 4 ≤ (w.extractLsb' 0 8).toNat := h
  simp only [rowMatches, encode, low]
  exact decide_eq_true h'

theorem rd (sel : ReadSel) : Statement (.rd sel) := fun _ => rfl

theorem pad : Statement .pad := fun _ => by decide

theorem pad2 : Statement .pad2 := fun _ => by decide

theorem loadw : Statement .loadw := fun _ => by decide

theorem sched : Statement .sched := fun _ => by decide

theorem winit : Statement .winit := fun _ => by decide

theorem round : Statement .round := fun _ => by decide

theorem fold : Statement .fold := fun _ => by decide

end Sys2Proof.Laws.Row
end

