-- ==== Sys2Proof/Tests/Slice0.lean ====
section
/-! SUPPORT. The model's own tests. Every expected value is the spec's (95_test_vectors.md or a rule's own
example), named beside the test. Then, for every obligation with hypotheses, witnesses that meet them. -/

namespace Sys2Proof.Machine.Tests

open Sys2Proof Sys2Proof.Machine

/-! ## Helpers -/

/-- The next state of a result, if it is one. -/
def nextOf : Result → Option State
  | .next t => some t
  | .fault _ => none
  | .refused _ => none

/-- One field of the next state. -/
def fieldOf {α : Type} (f : State → α) (r : Result) : Option α := (nextOf r).map f

/-- The reset state in another phase. -/
def inPhase (p : Phase) : State := { State.reset with phase := p.code }

/-- A message byte written and FINAL accepted, as in V14: "a" is 0x61. -/
def afterFinal : State :=
  { State.reset with
    buf := State.reset.buf.set 0 0x61
    nbuf := 1
    mlen := 1
    fin := true
    phase := Phase.pad.code }

/-- The block of "abc" in LOADW (V10, L = 3). -/
def abcBlock : State :=
  { State.reset with
    buf := padBuf (((State.reset.buf.set 0 0x61).set 1 0x62).set 2 0x63) 3 3
    nbuf := 64
    mlen := 3
    fin := true
    phase := Phase.loadw.code }

/-- A block of a message in some phase, with an index. -/
def inBlockAt (p : Phase) (i : BitVec 6) : State :=
  { State.reset with nbuf := 64, mlen := 1, fin := true, idx := i, phase := p.code }

/-! ## Well-formedness -/

theorem test_wellFormed_illegal : Instr.WellFormed (.illegal 0x0004) := by decide

/-- The check refuses an illegal command that carries a legal opcode (rule R57). -/
theorem test_wellFormed_refuses_legal_opcode : ¬ Instr.WellFormed (.illegal 0xff03) := by decide

theorem test_wellFormed_wrb : Instr.WellFormed (.wrb 0xff) := by decide

/-! ## Decoding: words written out bit by bit from rules R53 to R59 -/

/-- DATA 0000_0000, OP 0000_0000 (V8). -/
theorem test_decode_nop : decode (.cmd16 0b0000000000000000) = .ok .nop := by decide

/-- DATA 1111_1111 is ignored, OP 0000_0001 (V8). -/
theorem test_decode_init : decode (.cmd16 0b1111111100000001) = .ok .init := by decide

/-- DATA 0110_0001 is the message byte, OP 0000_0010 (V8). -/
theorem test_decode_wrb : decode (.cmd16 0b0110000100000010) = .ok (.wrb 0x61) := by decide

/-- DATA 0000_0010 is ignored, OP 0000_0011 (V8). -/
theorem test_decode_final : decode (.cmd16 0b0000001000000011) = .ok .final := by decide

/-- OP 0000_0100, the first illegal one, and OP 0001_0000 (V8). -/
theorem test_decode_illegal :
    decode (.cmd16 0b0000000000000100) = .ok (.illegal 0x0004) ∧
    decode (.cmd16 0b0000000000010000) = .ok (.illegal 0x0010) := by decide

/-- Selector 1111, the last reserved one (rule R58). -/
theorem test_decode_rd : decode (.rsel 0b1111) = .ok (.rd 15) := by decide

/-- The seven codes of rule R20. -/
theorem test_decode_phases :
    decode (.phase 0b0001) = .ok .pad ∧ decode (.phase 0b0010) = .ok .pad2 ∧
    decode (.phase 0b0011) = .ok .loadw ∧ decode (.phase 0b0100) = .ok .sched ∧
    decode (.phase 0b0101) = .ok .winit ∧ decode (.phase 0b0110) = .ok .round ∧
    decode (.phase 0b0111) = .ok .fold := by decide

/-- IDLE and DONE select nothing and 9 and 15 are unreachable (rule R59). -/
theorem test_decode_refuses :
    decode (.phase 0b0000) = .error .noMicroOperation ∧
    decode (.phase 0b1000) = .error .noMicroOperation ∧
    decode (.phase 0b1001) = .error .unreachablePhase ∧
    decode (.phase 0b1111) = .error .unreachablePhase := by decide

/-- The assembler's word of `WRB 0x61` (rule R61, P2). -/
theorem test_encode_wrb : encode (.wrb 0x61) = .cmd16 0x6102 := by decide

theorem test_tableWord :
    decodeTableWord 16 0x6102 = some (.wrb 0x61) ∧ decodeTableWord 4 7 = some .fold ∧
    decodeTableWord 4 8 = some (.rd 8) ∧ decodeTableWord 4 0 = some (.rd 0) := by decide

/-! ## The word functions (V4 to V7) -/

theorem test_smallSigma0 : smallSigma0 0x12345678 = 0xe7fce6ee := by decide

theorem test_smallSigma1 : smallSigma1 0x12345678 = 0xa1f78649 := by decide

/-- The shift fills with zeros (R70, R71's corner cases; reading A1). -/
theorem test_sigma_shift_is_logical :
    smallSigma0 0x80000000 = 0x11002000 ∧ smallSigma1 0x80000000 = 0x00205000 := by decide

theorem test_bigSigma0 : bigSigma0 0x6a09e667 = 0xce20b47e := by decide

theorem test_bigSigma1 : bigSigma1 0x12345678 = 0x3561abda := by decide

theorem test_ch : ch 0xf0f0f0f0 0xaaaaaaaa 0x55555555 = 0xa5a5a5a5 := by decide

theorem test_maj : maj 0xf0f0f0f0 0xcccccccc 0xaaaaaaaa = 0xe8e8e8e8 := by decide

theorem test_rotr : rotr 0x12345678 18 = 0x159e048d ∧ rotr 0x00000001 31 = 0x00000002 := by decide

theorem test_shr : shr 0xffffffff 3 = 0x1fffffff := by decide

/-- Byte order of the length field: 8 · 56 = 0x1C0 (V10). -/
theorem test_lenField : be64bytes (lenField 56) = [0, 0, 0, 0, 0, 0, 0x01, 0xc0] := by decide

/-- The first digest bytes of "abc" (V2). -/
theorem test_be32bytes : be32bytes 0xba7816bf = [0xba, 0x78, 0x16, 0xbf] := by decide

/-- The edges of the table of `K` and of its rows (rule R27). -/
theorem test_kRom :
    kRom[0] = 0x428a2f98 ∧ kRom[3] = 0xe9b5dba5 ∧ kRom[4] = 0x3956c25b ∧ kRom[31] = 0x14292967 ∧
    kRom[32] = 0x27b70a85 ∧ kRom[63] = 0xc67178f2 := by decide

/-! ## One step of each operation -/

/-- NOP in DONE leaves STATUS at 0x00080002 (rule R96). -/
theorem test_nop : fieldOf State.status (exec .nop (inPhase .done)) = some 0x00080002 := by decide

/-- INIT from DONE with errors (V15): STATUS and `RD 0`. -/
theorem test_init :
    fieldOf (fun t => (t.status, t.readMap 0))
      (exec .init { inPhase .done with errSeq := true, errOp := true, mlen := 3 }) =
      some (0x00000000, 0x6a09e667) := by decide

/-- From reset, `WRB 0x61` (V14). -/
theorem test_wrb :
    fieldOf (fun t => (t.status, t.buf[0], t.mlen)) (exec (.wrb 0x61) State.reset) =
      some (0x00000100, 0x61, 1) := by decide

/-- The 64th byte (V15): LOADW, NBUF 64, BUSY. -/
theorem test_wrb_fills :
    fieldOf State.status (exec (.wrb 0x00) { State.reset with nbuf := 63, mlen := 63 }) =
      some 0x00034001 := by decide

/-- The byte past the limit (V15): ERR_LEN, NBUF and MLEN unchanged. -/
theorem test_wrb_errLen :
    fieldOf (fun t => (t.status, t.mlen))
      (exec (.wrb 0x00) { State.reset with nbuf := 63, mlen := BitVec.ofNat 61 (2 ^ 61 - 1) }) =
      some (0x00003f10, BitVec.ofNat 61 (2 ^ 61 - 1)) := by decide

/-- Precedence (V15, rule R105): in DONE at the limit only ERR_SEQ is set. -/
theorem test_wrb_errSeq_first :
    fieldOf State.status
      (exec (.wrb 0x00) { inPhase .done with mlen := BitVec.ofNat 61 (2 ^ 61 - 1) }) =
      some 0x0008000a := by decide

/-- FINAL after `WRB 0x61` (V14). -/
theorem test_final :
    fieldOf State.status (exec .final { State.reset with nbuf := 1, mlen := 1 }) = some 0x00010121 := by
  decide

/-- FINAL in DONE with ERR_SEQ already set (V15). -/
theorem test_final_done :
    fieldOf State.status (exec .final { inPhase .done with errSeq := true }) = some 0x0008000a := by decide

/-- `CMD 0x0004` in DONE turns 0x0008000a into 0x0008000e (rule R100). -/
theorem test_illegal :
    fieldOf (fun t => (t.status, t.faulted)) (exec (.illegal 0x0004) { inPhase .done with errSeq := true }) =
      some (0x0008000e, true) := by decide

/-- Reads in DONE after "abc" (V9): MLEN low, and a reserved selector. -/
theorem test_rd :
    fieldOf State.reads (exec (.rd 9) { inPhase .done with mlen := 3 }) = some [(9, 0x00000003)] ∧
    fieldOf State.reads (exec (.rd 15) { inPhase .done with mlen := 3 }) = some [(15, 0x00000000)] := by
  decide

/-- `MLEN[60:32]` is at selector 10 (rule R42). -/
theorem test_rd_high :
    fieldOf State.reads (exec (.rd 10) { State.reset with mlen := BitVec.ofNat 61 (2 ^ 61 - 1) }) =
      some [(10, 0x1fffffff)] := by decide

/-- PAD after "a" and FINAL (V14). -/
theorem test_pad_status : fieldOf State.status (exec .pad afterFinal) = some 0x00034021 := by decide

/-- PAD's image at L = 55 and n = 55 (V10): 0x80 at byte 55 and the length 0x01b8. -/
theorem test_pad_55 :
    fieldOf (fun t => (t.buf[54], t.buf[55], t.buf[56], t.buf[62], t.buf[63], t.lenpend))
      (exec .pad { inPhase .pad with buf := Vector.replicate 64 0x61, nbuf := 55, mlen := 55, fin := true }) =
      some (0x61, 0x80, 0x00, 0x01, 0xb8, false) := by decide

/-- PAD2 for a 56-byte message (V10). -/
theorem test_pad2 :
    fieldOf (fun t => (t.buf[0], t.buf[61], t.buf[62], t.buf[63], t.lenpend))
      (exec .pad2 { inPhase .pad2 with buf := Vector.replicate 64 0x61, mlen := 56, lenpend := true }) =
      some (0x00, 0x00, 0x01, 0xc0, false) := by decide

/-- LOADW of "a" (V14). -/
theorem test_loadw_status :
    fieldOf State.status (exec .loadw (inBlockAt .loadw 0)) = some 0x10044021 := by decide

/-- LOADW of the "abc" block (V11). -/
theorem test_loadw_words :
    fieldOf (fun t => (t.w[0], t.w[1], t.w[14], t.w[15])) (exec .loadw abcBlock) =
      some (0x61626380, 0x00000000, 0x00000000, 0x00000018) := by decide

/-- SCHED(17) of the "abc" block: W[16] = 0x61626380 gives W[17] = 0x000f0000 (V11). -/
theorem test_sched :
    fieldOf (fun t => (t.w[17], t.idx))
      (exec .sched { inBlockAt .sched 17 with
        w := (((Vector.replicate 64 0).set 0 0x61626380).set 15 0x00000018).set 16 0x61626380 }) =
      some (0x000f0000, 18) := by decide

/-- SCHED(63) (V14). -/
theorem test_sched_last :
    fieldOf State.status (exec .sched (inBlockAt .sched 63)) = some 0x00054021 := by decide

/-- WINIT (V14, rule R80). -/
theorem test_winit :
    fieldOf (fun t => (t.status, t.v[0], t.v[7])) (exec .winit (inBlockAt .winit 0)) =
      some (0x00064021, 0x6a09e667, 0x5be0cd19) := by decide

/-- ROUND(0) of the "abc" block (V12). -/
theorem test_round :
    fieldOf (fun t => t.v.toList)
      (exec .round { inBlockAt .round 0 with v := h0Rom, w := (Vector.replicate 64 0).set 0 0x61626380 }) =
      some [0x5d6aebcd, 0x6a09e667, 0xbb67ae85, 0x3c6ef372,
        0xfa2a4622, 0x510e527f, 0x9b05688c, 0x1f83d9ab] := by decide

/-- ROUND(63) (V14). -/
theorem test_round_last :
    fieldOf State.status (exec .round (inBlockAt .round 63)) = some 0x00074021 := by decide

/-- FOLD of "abc": 0x6a09e667 + 0x506e3058 = 0xba7816bf, and DONE (V12, V14). -/
theorem test_fold :
    fieldOf (fun t => (t.h[0], t.status))
      (exec .fold { inBlockAt .fold 0 with v := (Vector.replicate 8 0).set 0 0x506e3058 }) =
      some (0xba7816bf, 0x00080002) := by decide

/-- FOLD with the length field still owed (V13: STATUS 0x00020061). -/
theorem test_fold_pad2 :
    fieldOf State.status (exec .fold { inBlockAt .fold 0 with lenpend := true }) = some 0x00020061 := by decide

/-- A command in BUSY is not accepted (V15, last row). -/
theorem test_command_busy : exec .init (inBlockAt .round 5) = .next (inBlockAt .round 5) := rfl

/-! ## Steps -/

/-- A command at the head waits while the engine rounds (rule R52). -/
theorem test_step_waits :
    fieldOf (fun t => (t.inputs, t.idx)) (step { inBlockAt .round 5 with inputs := [.command 0x0001] }) =
      some ([.command 0x0001], 6) := by decide

/-- In READY the command is taken (rule R95). -/
theorem test_step_accepts :
    fieldOf (fun t => (t.inputs, t.status)) (step { State.reset with inputs := [.command 0x6102, .read 9] }) =
      some ([.read 9], 0x00000100) := by decide

/-- A reset step in BUSY (rule R117). -/
theorem test_step_reset :
    fieldOf (fun t => (t.status, t.readMap 0))
      (step { inBlockAt .round 5 with h := Vector.replicate 8 7, inputs := [.reset] }) =
      some (0x00000000, 0x6a09e667) := by decide

/-- A polling loop that has not ended reads once more after one engine step (rule R62). -/
theorem test_step_poll :
    fieldOf (fun t => (t.inputs, t.reads)) (step { inBlockAt .winit 0 with inputs := [.poll .notBusy] }) =
      some ([.idle, .poll .notBusy], [(8, 0x00054021)]) := by decide

/-- A code of no phase stops the machine by name (rule R106). -/
theorem test_step_unreachable :
    nextOf (step { State.reset with phase := 9 }) = none := by decide

theorem test_withFetchWord_command :
    step (State.reset.withFetchWord 16 0x6102) = exec (.wrb 0x61) State.reset := rfl

theorem test_withFetchWord_phase :
    step (State.reset.withFetchWord 4 4) = exec .sched { inPhase .sched with idx := 16 } := rfl

theorem test_withFetchWord_read : step (State.reset.withFetchWord 4 8) = exec (.rd 8) State.reset := rfl

/-! ## The assembler (rules R61, R62) -/

theorem test_parse_wrb :
    parseLine "  WRB 0x61  ; a byte".toList = .ok (some (.wrb 0x61)) ∧
    parseLine "CMD 65535".toList = .ok (some (.cmd 65535)) ∧
    parseLine "; nothing".toList = .ok none := by decide

theorem test_parse_message :
    parseLine "WRS bytes[1, 0xff]".toList = .ok (some (.wrs [0x01, 0xff])) ∧
    parseLine "HASH \"a;b\"".toList = .ok (some (.hash [0x61, 0x3b, 0x62])) := by decide

theorem test_expand :
    AsmLine.expand (.wrb 256) = .error .outOfRange ∧ AsmLine.expand .wait = .ok [.poll .notBusy] := by decide

/-! ## Witnesses: the hypotheses of each obligation are met -/

theorem witness_EncodeThenDecodeGivesTheOperation :
    Instr.WellFormed (.illegal 0xff04) ∧ Instr.WellFormed (.illegal 0x00ff) ∧ Instr.WellFormed .nop ∧
    Instr.WellFormed (.wrb 0x00) ∧ Instr.WellFormed (.rd 15) ∧ Instr.WellFormed .fold := by decide

theorem witness_DecodeThenEncodeKeepsTheBits :
    decode (.cmd16 0xab00) = .ok .nop ∧ decode (.cmd16 0x0002) = .ok (.wrb 0x00) ∧
    decode (.cmd16 0x00ff) = .ok (.illegal 0x00ff) ∧ decode (.rsel 0) = .ok (.rd 0) ∧
    decode (.phase 1) = .ok .pad ∧ decode (.phase 7) = .ok .fold := by decide

theorem witness_CommandDecodingIsTotal :
    (0xff00 : CmdWord).extractLsb' 0 8 = 0x00 ∧ (0x0001 : CmdWord).extractLsb' 0 8 = 0x01 ∧
    (0x0302 : CmdWord).extractLsb' 0 8 = 0x02 ∧ (0x0003 : CmdWord).extractLsb' 0 8 = 0x03 ∧
    4 ≤ ((0x0004 : CmdWord).extractLsb' 0 8).toNat ∧ 4 ≤ ((0x00ff : CmdWord).extractLsb' 0 8).toNat := by
  decide

/-- `Quiet` in both its forms, and a phase of each clause. -/
theorem witness_EngineStepIsSelectedByPhase :
    (∀ p : Phase, (inPhase p).Quiet ∧ (inPhase p).phase = p.code ∧ (inPhase p).inputs = []) ∧
    State.Quiet { inPhase .pad with inputs := [.command 0x0000] } ∧
    State.Quiet { State.reset with phase := 9 } ∧ 9 ≤ (9 : PhaseCode).toNat ∧ 9 ≤ (15 : PhaseCode).toNat :=
  ⟨fun _ => ⟨.inl rfl, rfl, rfl⟩, .inr ⟨_, _, rfl⟩, .inl rfl, by decide, by decide⟩

/-- Each clause and each of its cases, one state each. -/
theorem witness_StepRunsTheDecodedOperation :
    (∃ s : State, decode (.phase s.phase) = .ok .round ∧ s.inputs = []) ∧
    (∃ s : State, decode (.phase s.phase) = .ok .pad ∧ s.inputs = .command 0x0000 :: []) ∧
    (∃ s : State, decode (.phase s.phase) = .ok .fold ∧ s.inputs = .idle :: []) ∧
    (∃ s : State, s.phase = Phase.idle.code ∧ s.inputs = .command 0x0004 :: [] ∧
      decode (.cmd16 0x0004) = .ok (.illegal 0x0004)) ∧
    (∃ s : State, s.phase = Phase.done.code ∧ s.inputs = .command 0xff00 :: [] ∧
      decode (.cmd16 0xff00) = .ok .nop) ∧
    (∃ s : State, s.inputs = .read 15 :: [] ∧ decode (.rsel 15) = .ok (.rd 15)) ∧
    (∃ s : State, s.inputs = .poll .notBusy :: []) ∧ (∃ s : State, s.inputs = .poll .done :: []) :=
  ⟨⟨inPhase .round, by decide, rfl⟩,
    ⟨{ inPhase .pad with inputs := [.command 0x0000] }, by decide, rfl⟩,
    ⟨{ inPhase .fold with inputs := [.idle] }, by decide, rfl⟩,
    ⟨{ inPhase .idle with inputs := [.command 0x0004] }, rfl, rfl, by decide⟩,
    ⟨{ inPhase .done with inputs := [.command 0xff00] }, rfl, rfl, by decide⟩,
    ⟨{ State.reset with inputs := [.read 15] }, rfl, by decide⟩,
    ⟨{ State.reset with inputs := [.poll .notBusy] }, rfl⟩,
    ⟨{ State.reset with inputs := [.poll .done] }, rfl⟩⟩

theorem witness_ReadyEngineHoldsItsState :
    (inPhase .idle).phase = Phase.idle.code ∧ (inPhase .idle).inputs = [] ∧
    (inPhase .done).phase = Phase.done.code ∧
    State.inputs { inPhase .done with inputs := [.idle] } = .idle :: [] ∧
    ∃ t, step { inPhase .done with inputs := [.read 0] } = .next t :=
  ⟨rfl, rfl, rfl, rfl, _, rfl⟩

theorem witness_CommandWaitsWhileBusy :
    ∃ s : State, s.phase ≠ Phase.idle.code ∧ s.phase ≠ Phase.done.code ∧ s.inputs = .command 0xffff :: [] :=
  ⟨{ inPhase .fold with inputs := [.command 0xffff] }, by decide, by decide, rfl⟩

theorem witness_ResetStepGivesTheResetState :
    State.inputs { inPhase .round with inputs := [.reset] } = .reset :: [] := rfl

theorem witness_NopChangesNothing :
    (inPhase .idle).phase = Phase.idle.code ∧ (inPhase .done).phase = Phase.done.code := by decide

theorem witness_InitStartsANewHash :
    State.phase { inPhase .idle with nbuf := 3, mlen := 3 } = Phase.idle.code ∧
    State.phase { inPhase .done with errSeq := true } = Phase.done.code := by decide

/-- Each clause: DONE; the limit; below it with NBUF at 0; one below it with NBUF at 63. -/
theorem witness_WrbAppendsAByte :
    (∃ s : State, s.phase = Phase.done.code) ∧
    (∃ s : State, s.phase = Phase.idle.code ∧ s.mlen.toNat = 2 ^ 61 - 1) ∧
    (∃ s : State, s.phase = Phase.idle.code ∧ s.mlen.toNat < 2 ^ 61 - 1 ∧ s.nbuf.toNat = 0) ∧
    (∃ s : State, s.phase = Phase.idle.code ∧ s.mlen.toNat = 2 ^ 61 - 2 ∧ s.nbuf.toNat = 63) :=
  ⟨⟨inPhase .done, rfl⟩, ⟨{ State.reset with mlen := maxMlen }, rfl, by decide⟩,
    ⟨State.reset, rfl, by decide, rfl⟩,
    ⟨{ State.reset with nbuf := 63, mlen := maxMlen - 1 }, rfl, by decide, rfl⟩⟩

theorem witness_FinalStartsThePadding :
    (inPhase .done).phase = Phase.done.code ∧ (inPhase .idle).phase = Phase.idle.code := by decide

theorem witness_IllegalCommandSetsErrOp :
    (inPhase .idle).phase = Phase.idle.code ∧ (inPhase .done).phase = Phase.done.code ∧
    4 ≤ ((0x0004 : CmdWord).extractLsb' 0 8).toNat ∧ 4 ≤ ((0xffff : CmdWord).extractLsb' 0 8).toNat := by decide

/-- Selectors at the edges of each clause; no two clauses meet. -/
theorem witness_ReadReturnsTheReadMap :
    (0 : ReadSel).toNat < 8 ∧ (7 : ReadSel).toNat < 8 ∧ (8 : ReadSel).toNat = 8 ∧ (9 : ReadSel).toNat = 9 ∧
    (10 : ReadSel).toNat = 10 ∧ 11 ≤ (11 : ReadSel).toNat ∧ 11 ≤ (15 : ReadSel).toNat := by decide

theorem witness_StatusFields :
    State.reset.rst = false ∧ State.rst { State.reset with inputs := [.reset] } = true := by decide

theorem witness_CommandHasNoEffectWhileBusy :
    (1 ≤ (inPhase .pad).phase.toNat ∧ (inPhase .pad).phase.toNat ≤ 7) ∧
    (1 ≤ (inPhase .fold).phase.toNat ∧ (inPhase .fold).phase.toNat ≤ 7) := by decide

theorem witness_SideEffectsAndIdempotency :
    (∃ t u, exec (.rd 0) State.reset = .next t ∧ exec (.rd 0) t = .next u) ∧
    (State.reset.phase = Phase.idle.code ∧ State.reset.mlen.toNat < 2 ^ 61 - 1 ∧
      ∃ t, exec (.wrb 0x61) State.reset = .next t) ∧
    ((inPhase .done).phase = Phase.done.code ∧ ∃ t, exec .final (inPhase .done) = .next t) ∧
    (∃ t, exec .init (inPhase .done) = .next t) ∧ (∃ t, exec .nop State.reset = .next t) :=
  ⟨⟨_, _, rfl, rfl⟩, ⟨rfl, by decide, _, rfl⟩, ⟨rfl, _, rfl⟩, ⟨_, rfl⟩, ⟨_, rfl⟩⟩

/-- NBUF at 0, 55, 56 and 63, and for every clause about a byte an index it speaks of. -/
theorem witness_PadWritesTheLastBlock :
    (∃ s : State, s.nbuf.toNat = 0 ∧ s.nbuf.toNat ≤ 63 ∧ s.nbuf.toNat < 1 ∧ 1 ≤ 55) ∧
    (∃ s : State, s.nbuf.toNat = 55 ∧ s.nbuf.toNat ≤ 63 ∧ 54 < s.nbuf.toNat ∧ s.nbuf.toNat ≤ 55 ∧ 56 ≤ 56) ∧
    (∃ s : State, s.nbuf.toNat = 56 ∧ s.nbuf.toNat ≤ 63 ∧ 56 ≤ s.nbuf.toNat ∧ s.nbuf.toNat < 57) ∧
    (∃ s : State, s.nbuf.toNat = 63 ∧ s.nbuf.toNat ≤ 63 ∧ 62 < s.nbuf.toNat) :=
  ⟨⟨State.reset, by decide⟩, ⟨{ State.reset with nbuf := 55 }, by decide⟩,
    ⟨{ State.reset with nbuf := 56 }, by decide⟩, ⟨{ State.reset with nbuf := 63 }, by decide⟩⟩

theorem witness_Pad2WritesTheLengthBlock : 55 ≤ 55 ∧ 56 ≤ 56 ∧ 56 ≤ 63 := by decide

theorem witness_PaddedStreamProperties :
    ([] : List Byte).length < 2 ^ 61 ∧ (List.replicate 55 (0x61 : Byte)).length % 64 ≤ 55 ∧
    56 ≤ (List.replicate 56 (0x61 : Byte)).length % 64 := by decide

theorem witness_SchedDerivesOneWord :
    ((inBlockAt .sched 16).phase = Phase.sched.code ∧ 16 ≤ (inBlockAt .sched 16).idx.toNat) ∧
    ((inBlockAt .sched 63).phase = Phase.sched.code ∧ 16 ≤ (inBlockAt .sched 63).idx.toNat) := by decide

/-- Two states that differ in `H` and `V`, for LOADW and for SCHED. -/
theorem witness_ScheduleReadsOnlyItsOwnRegisters :
    (∃ s', exec .loadw (inBlockAt .loadw 0) = .next s') ∧ (∃ s', exec .sched (inBlockAt .sched 16) = .next s') ∧
    (∀ s : State, s.buf = State.buf { s with h := h0Rom, v := h0Rom } ∧
      s.w = State.w { s with h := h0Rom, v := h0Rom } ∧ s.idx = State.idx { s with h := h0Rom, v := h0Rom } ∧
      s.phase = State.phase { s with h := h0Rom, v := h0Rom }) :=
  ⟨⟨_, rfl⟩, ⟨_, rfl⟩, fun _ => ⟨rfl, rfl, rfl, rfl⟩⟩

theorem witness_ScheduleOfABlock : abcBlock.Quiet ∧ abcBlock.phase = Phase.loadw.code := ⟨.inl rfl, rfl⟩

theorem witness_RoundUpdatesTheWorkingVariables :
    (inBlockAt .round 0).phase = Phase.round.code ∧ (inBlockAt .round 63).phase = Phase.round.code := by decide

theorem witness_FoldFeedsForward :
    (State.fin { State.reset with fin := true, lenpend := true } = true ∧
      State.lenpend { State.reset with fin := true, lenpend := true } = true) ∧
    (State.fin { State.reset with fin := true } = true ∧
      State.lenpend { State.reset with fin := true } = false) ∧ State.reset.fin = false := by decide

theorem witness_WordFunctionsBitByBit : 0 < 1 ∧ 1 < 32 ∧ 31 < 32 ∧ 0 < 31 ∧ 0 < 32 := by decide

theorem witness_CompressionOfABlock :
    (inBlockAt .winit 0).Quiet ∧ (inBlockAt .winit 0).phase = Phase.winit.code := ⟨.inl rfl, rfl⟩

theorem witness_CommandFrame :
    (∃ t, exec .nop State.reset = .next t) ∧ (∃ t, exec .init State.reset = .next t) ∧
    (∃ t, exec (.wrb 0x00) State.reset = .next t) ∧ (∃ t, exec .final State.reset = .next t) ∧
    (∃ t, exec (.illegal 0x0004) State.reset = .next t) :=
  ⟨⟨_, rfl⟩, ⟨_, rfl⟩, ⟨_, rfl⟩, ⟨_, rfl⟩, ⟨_, rfl⟩⟩

theorem witness_PaddingFrame :
    (∃ t, exec .pad afterFinal = .next t) ∧ (∃ t, exec .pad2 (inPhase .pad2) = .next t) ∧
    0 < afterFinal.nbuf.toNat := ⟨⟨_, rfl⟩, ⟨_, rfl⟩, by decide⟩

theorem witness_ScheduleFrame :
    (∃ t, exec .loadw abcBlock = .next t) ∧ (∃ t, exec .sched (inBlockAt .sched 63) = .next t) ∧
    62 ≠ (inBlockAt .sched 63).idx.toNat := ⟨⟨_, rfl⟩, ⟨_, rfl⟩, by decide⟩

theorem witness_CompressionFrame :
    (∃ t, exec .winit (inBlockAt .winit 0) = .next t) ∧ (∃ t, exec .round (inBlockAt .round 0) = .next t) ∧
    (∃ t, exec .fold (inBlockAt .fold 0) = .next t) := ⟨⟨_, rfl⟩, ⟨_, rfl⟩, ⟨_, rfl⟩⟩

/-- A state of the invariant in each phase, at the edges of rule R31's ranges. -/
theorem witness_inv_idle :
    State.reset.Inv ∧ State.Inv { State.reset with nbuf := 63, mlen := 127 } :=
  ⟨show _ ∧ _ by decide, show _ ∧ _ by decide⟩

theorem witness_inv_pad : afterFinal.Inv := show _ ∧ _ by decide

theorem witness_inv_pad2 : State.Inv { inPhase .pad2 with fin := true, lenpend := true, mlen := 56 } :=
  show _ ∧ _ by decide

theorem witness_inv_block :
    abcBlock.Inv ∧ (inBlockAt .sched 16).Inv ∧ (inBlockAt .sched 63).Inv ∧ (inBlockAt .winit 0).Inv ∧
    (inBlockAt .round 0).Inv ∧ (inBlockAt .round 63).Inv ∧ (inBlockAt .fold 0).Inv :=
  ⟨show _ ∧ _ by decide, show _ ∧ _ by decide, show _ ∧ _ by decide, show _ ∧ _ by decide,
    show _ ∧ _ by decide, show _ ∧ _ by decide, show _ ∧ _ by decide⟩

theorem witness_inv_done : State.Inv { inPhase .done with mlen := 3 } := show _ ∧ _ by decide

theorem witness_MicroOperationsRaiseNoError :
    afterFinal.Inv ∧ decodePhase afterFinal.phase = .ok .pad ∧
    (inBlockAt .fold 0).Inv ∧ decodePhase (inBlockAt .fold 0).phase = .ok .fold :=
  ⟨witness_inv_pad, by decide, witness_inv_block.2.2.2.2.2.2, by decide⟩

/-- A step that meets each error condition, and one that meets none. -/
theorem witness_ErrorConditions :
    (∃ t, step { State.reset with inputs := [.command 0x0004] } = .next t ∧ t.errOp = true) ∧
    (∃ t, step { inPhase .done with inputs := [.command 0x0002] } = .next t ∧ t.errSeq = true) ∧
    (∃ t, step { inPhase .done with inputs := [.command 0x0003] } = .next t ∧ t.errSeq = true) ∧
    (∃ t, step { State.reset with mlen := maxMlen, inputs := [.command 0x0002] } = .next t ∧
      t.errLen = true) ∧
    (∃ t, step State.reset = .next t ∧ t.errOp = false) :=
  ⟨⟨_, rfl, rfl⟩, ⟨_, rfl, rfl⟩, ⟨_, rfl, rfl⟩, ⟨_, rfl, rfl⟩, ⟨_, rfl, rfl⟩⟩

theorem witness_RaisingAFlagChangesNothingElse :
    (∃ s : State, s.inputs = .command 0x0004 :: [] ∧ s.phase = Phase.idle.code ∧
      4 ≤ ((0x0004 : CmdWord).extractLsb' 0 8).toNat) ∧
    (∃ s : State, s.inputs = .command 0x00ff :: [] ∧ s.phase = Phase.done.code ∧
      4 ≤ ((0x00ff : CmdWord).extractLsb' 0 8).toNat) ∧
    (∃ s : State, s.inputs = .command 0xff02 :: [] ∧ s.phase = Phase.done.code ∧
      (0xff02 : CmdWord).extractLsb' 0 8 = 0x02) ∧
    (∃ s : State, s.inputs = .command 0xff03 :: [] ∧ s.phase = Phase.done.code ∧
      (0xff03 : CmdWord).extractLsb' 0 8 = 0x03) ∧
    (∃ s : State, s.inputs = .command 0x0002 :: [] ∧ s.phase = Phase.idle.code ∧
      (0x0002 : CmdWord).extractLsb' 0 8 = 0x02 ∧ s.mlen.toNat = 2 ^ 61 - 1) :=
  ⟨⟨{ State.reset with inputs := [.command 0x0004] }, rfl, rfl, by decide⟩,
    ⟨{ inPhase .done with inputs := [.command 0x00ff] }, rfl, rfl, by decide⟩,
    ⟨{ inPhase .done with inputs := [.command 0xff02] }, rfl, rfl, by decide⟩,
    ⟨{ inPhase .done with inputs := [.command 0xff03] }, rfl, rfl, by decide⟩,
    ⟨{ State.reset with mlen := maxMlen, inputs := [.command 0x0002] }, rfl, rfl, by decide, by decide⟩⟩

/-- INIT and reset each clear a set flag. -/
theorem witness_ErrorFlagsAreSticky :
    (∃ t, step { inPhase .done with errOp := true, inputs := [.command 0x0001] } = .next t ∧
      t.errOp = false) ∧
    (∃ t, step { inPhase .round with errSeq := true, errLen := true, inputs := [.reset] } = .next t ∧
      t.errSeq = false ∧ t.errLen = false) := ⟨⟨_, rfl, rfl⟩, ⟨_, rfl, rfl, rfl⟩⟩

theorem witness_FaultRecordIsNeverCleared :
    (∃ t, step { State.reset with faulted := true, errOp := true, inputs := [.reset] } = .next t) ∧
    State.FaultsRecorded { State.reset with faulted := true, errOp := true } ∧
    (∃ t, step { State.reset with inputs := [.command 0x0004] } = .next t ∧ t.faulted = true) :=
  ⟨⟨_, rfl⟩, fun _ => rfl, ⟨_, rfl, rfl⟩⟩

theorem witness_UnreachableStatesFault :
    (9 ≤ (9 : PhaseCode).toNat ∧ State.Quiet { State.reset with phase := 9 }) ∧
    64 ≤ (64 : BitVec 7).toNat ∧ 64 ≤ (127 : BitVec 7).toNat ∧ State.reset.phase = Phase.idle.code ∧
    State.reset.mlen.toNat < 2 ^ 61 - 1 ∧ (15 : BitVec 6).toNat < 16 :=
  ⟨⟨by decide, .inl rfl⟩, by decide, by decide, rfl, by decide, by decide⟩

theorem witness_StepKeepsTheInvariant :
    State.reset.StepInv ∧ (∃ t, step State.reset = .next t) ∧
    abcBlock.StepInv ∧ (∃ t, step abcBlock = .next t) :=
  ⟨⟨witness_inv_idle.1, fun h => absurd h (by decide)⟩, ⟨_, rfl⟩,
    ⟨witness_inv_block.1, fun _ h => absurd h (by decide)⟩, ⟨_, rfl⟩⟩

theorem witness_ReachableStatesSatisfyTheTable : Reachable State.reset := .reset []

/-- A state after one step is reachable too, and it is not reset. -/
theorem witness_ReachableStatesNeverStop :
    ∃ s, Reachable s ∧ s.nbuf = 1 :=
  ⟨_, .step (.reset [.command 0x6102]) rfl, rfl⟩

/-- A step of each row of the table: the commands. -/
theorem witness_PhaseTransitions_commands :
    (State.Inv { State.reset with nbuf := 63, mlen := 63, inputs := [.command 0x0002] } ∧
      ∃ t, step { State.reset with nbuf := 63, mlen := 63, inputs := [.command 0x0002] } = .next t) ∧
    (∃ t, step { State.reset with inputs := [.command 0x0002] } = .next t) ∧
    (∃ t, step { State.reset with inputs := [.command 0x0003] } = .next t) ∧
    (State.Inv { inPhase .done with inputs := [.command 0x0001] } ∧
      ∃ t, step { inPhase .done with inputs := [.command 0x0001] } = .next t) ∧
    (∃ t, step { inPhase .done with inputs := [.command 0x0002] } = .next t) ∧
    (∃ t, step { inPhase .done with inputs := [.command 0x0004] } = .next t) :=
  ⟨⟨show _ ∧ _ by decide, _, rfl⟩, ⟨_, rfl⟩, ⟨_, rfl⟩, ⟨show _ ∧ _ by decide, _, rfl⟩, ⟨_, rfl⟩, ⟨_, rfl⟩⟩

/-- A step of each row of the table: the engine, at the edges of IDX, and reset. -/
theorem witness_PhaseTransitions_engine :
    (∃ t, step afterFinal = .next t) ∧ (∃ t, step (inPhase .pad2) = .next t) ∧
    (∃ t, step abcBlock = .next t) ∧ (∃ t, step (inBlockAt .sched 62) = .next t) ∧
    (∃ t, step (inBlockAt .sched 63) = .next t) ∧ (∃ t, step (inBlockAt .winit 0) = .next t) ∧
    (∃ t, step (inBlockAt .round 62) = .next t) ∧ (∃ t, step (inBlockAt .round 63) = .next t) ∧
    (∃ t, step (inBlockAt .fold 0) = .next t) ∧ (∃ t, step { inPhase .round with inputs := [.reset] } = .next t) :=
  ⟨⟨_, rfl⟩, ⟨_, rfl⟩, ⟨_, rfl⟩, ⟨_, rfl⟩, ⟨_, rfl⟩, ⟨_, rfl⟩, ⟨_, rfl⟩, ⟨_, rfl⟩, ⟨_, rfl⟩, ⟨_, rfl⟩⟩

theorem witness_BlockStepOrder :
    (abcBlock.Quiet ∧ abcBlock.phase = Phase.loadw.code) ∧
    (afterFinal.Quiet ∧ afterFinal.phase = Phase.pad.code ∧ afterFinal.nbuf.toNat ≤ 63) ∧
    (State.Quiet { inPhase .pad with nbuf := 63 } ∧ (63 : BitVec 7).toNat ≤ 63) ∧
    (inPhase .pad2).phase = Phase.pad2.code ∧
    (afterFinal.Inv ∧ afterFinal.phase ≠ Phase.loadw.code ∧
      ∃ t, step afterFinal = .next t ∧ t.phase = Phase.loadw.code ∧ t.fin = true) :=
  ⟨⟨.inl rfl, rfl⟩, ⟨.inl rfl, rfl, by decide⟩, ⟨.inl rfl, by decide⟩, rfl,
    ⟨witness_inv_pad, by decide, _, rfl, rfl, rfl⟩⟩

/-- Each of FOLD's three ways out. -/
theorem witness_BlockFoldsIntoTheHashState :
    (∃ s : State, s.Quiet ∧ s.phase = Phase.loadw.code ∧ s.fin = false) ∧
    (∃ s : State, s.Quiet ∧ s.phase = Phase.loadw.code ∧ s.fin = true ∧ s.lenpend = false) ∧
    (∃ s : State, s.Quiet ∧ s.phase = Phase.loadw.code ∧ s.fin = true ∧ s.lenpend = true) :=
  ⟨⟨{ abcBlock with fin := false }, .inl rfl, rfl, rfl⟩, ⟨abcBlock, .inl rfl, rfl, rfl, rfl⟩,
    ⟨{ abcBlock with lenpend := true }, .inl rfl, rfl, rfl, rfl⟩⟩

/-- Each clause, NBUF at 0, 55, 56 and 63. -/
theorem witness_BusyIntervalsAreExact :
    (∃ s : State, s.Quiet ∧ s.phase = Phase.loadw.code ∧ s.fin = false) ∧
    (∀ n : BitVec 7, n = 0 ∨ n = 55 ∨ n = 56 ∨ n = 63 →
      ∃ s : State, s.Quiet ∧ s.phase = Phase.pad.code ∧ s.fin = true ∧ s.nbuf = n) ∧
    ((55 : BitVec 7).toNat ≤ 55 ∧ 56 ≤ (56 : BitVec 7).toNat ∧ (63 : BitVec 7).toNat ≤ 63) :=
  ⟨⟨{ abcBlock with fin := false }, .inl rfl, rfl, rfl⟩,
    fun n _ => ⟨{ afterFinal with nbuf := n }, .inl rfl, rfl, rfl, rfl⟩, by decide⟩

/-- The empty message has block 0, and one of 56 bytes has block 1. -/
theorem witness_LoadedBlocksAreThePaddedStream :
    (∃ (m : List Byte) (s : State), m.length < 2 ^ 61 ∧ s.phase = Phase.idle.code ∧
      s.inputs = messageInputs m ∧ 0 < nblocks m.length) ∧
    (∃ (m : List Byte) (s : State), m.length < 2 ^ 61 ∧ s.phase = Phase.done.code ∧
      s.inputs = messageInputs m ∧ 1 < nblocks m.length) :=
  ⟨⟨[], { State.reset with inputs := messageInputs [] }, by decide, rfl, rfl, by decide⟩,
    ⟨List.replicate 56 0x61, { inPhase .done with inputs := messageInputs (List.replicate 56 0x61) },
      by decide, rfl, rfl, by decide⟩⟩

theorem witness_HashContract :
    ∃ (m : List Byte) (s : State), m = [0x61, 0x62, 0x63] ∧ m.length < 2 ^ 61 ∧ s.phase = Phase.done.code ∧
      s.inputs = messageInputs m :=
  ⟨_, { inPhase .done with inputs := messageInputs [0x61, 0x62, 0x63] }, rfl, by decide, rfl, rfl⟩

/-- Idle steps and reads stand before, between and after the commands, with DATA bits that INIT and FINAL
ignore: the empty message from DONE and, without INIT, one byte from reset. -/
theorem witness_EveryConformingRunHashesTheMessage :
    (∃ s : State, ([] : List Byte).length < 2 ^ 61 ∧
      s.inputs.all HostInput.isCommandReadOrIdle = true ∧ s.phase = Phase.done.code ∧
      (commandsOf s.inputs).map decodeCommand = .init :: (([] : List Byte).map .wrb ++ [.final]) ∧
      s.inputs.length = 6) ∧
    (∃ s : State, s.inputs.all HostInput.isCommandReadOrIdle = true ∧
      s = { State.reset with inputs := s.inputs } ∧
      (commandsOf s.inputs).map decodeCommand = ([0x61] : List Byte).map .wrb ++ [.final] ∧
      s.inputs.length = 4) :=
  ⟨⟨{ inPhase .done with
      inputs := [.idle, .command 0xff01, .read 8, .command 0x0203, .idle, .read 0] },
      by decide, by decide, rfl, by decide, rfl⟩,
    ⟨{ State.reset with inputs := [.command 0x6102, .read 8, .command 0x0003, .idle] },
      by decide, rfl, by decide, rfl⟩⟩

/-- DONE with nothing presented, and with a command that is not INIT. -/
theorem witness_EveryConformingRun_stays :
    (∃ t, step (inPhase .done) = .next t) ∧ (∀ rest, (inPhase .done).inputs ≠ .reset :: rest) ∧
    (∀ w rest, (inPhase .done).inputs = .command w :: rest → w.extractLsb' 0 8 ≠ 0x01) ∧
    (∃ t, step { inPhase .done with inputs := [.command 0x0002] } = .next t) ∧
    (0x0002 : CmdWord).extractLsb' 0 8 ≠ 0x01 :=
  ⟨⟨_, rfl⟩, fun _ => nofun, fun _ _ => nofun, ⟨_, rfl⟩, by decide⟩

theorem witness_PollingLoopsEnd :
    (∃ s : State, s.Inv ∧ s.inputs = .poll .notBusy :: []) ∧
    (∃ s : State, s.Inv ∧ s.inputs = .poll .done :: [] ∧ s.fin = true) ∧
    (∃ s : State, s.Inv ∧ s.inputs = .poll .done :: [] ∧ s.phase = Phase.done.code) :=
  ⟨⟨{ abcBlock with inputs := [.poll .notBusy] }, show _ ∧ _ by decide, rfl⟩,
    ⟨{ abcBlock with inputs := [.poll .done] }, show _ ∧ _ by decide, rfl, rfl⟩,
    ⟨{ inPhase .done with inputs := [.poll .done] }, show _ ∧ _ by decide, rfl, rfl⟩⟩

theorem witness_HashMacroReadsTheDigest :
    ∃ (m : List Byte) (s : State), m = [0x61] ∧ m.length < 2 ^ 61 ∧ s.phase = Phase.idle.code ∧
      s.inputs = hashInputs m :=
  ⟨_, { State.reset with inputs := hashInputs [0x61] }, rfl, by decide, rfl, rfl⟩

/-- Two states that differ in every hidden register, all dead in IDLE with an empty buffer, and step. -/
theorem witness_DeadValuesNeverMatter :
    State.LiveEq State.reset
      { State.reset with
        v := Vector.replicate 8 1, w := Vector.replicate 64 2, buf := Vector.replicate 64 3 } ∧
    (∃ t, step State.reset = .next t) ∧
    step { State.reset with phase := 9 } = .fault .unreachablePhase :=
  ⟨⟨rfl, rfl, rfl, rfl, rfl, rfl, rfl, rfl, rfl, rfl, rfl, rfl, rfl,
    fun k _ h => absurd (of_decide_eq_true h : k < 0) (Nat.not_lt_zero k), fun _ _ => nofun, nofun⟩,
    ⟨_, rfl⟩, rfl⟩

theorem witness_ResetAndInitAreObservedAlike :
    (inPhase .done).phase = Phase.done.code ∧
    ∃ a, run (1 + 1) { inPhase .done with inputs := .reset :: [.read 0] } = .next a := ⟨rfl, _, rfl⟩

theorem witness_InstancesAreIndependent :
    ∃ sys', System.stepAt { engines := [State.reset, afterFinal] } ⟨1, by decide⟩ = .next sys' := ⟨_, rfl⟩

theorem witness_AssemblerLines :
    0 ≤ 255 ∧ 255 ≤ 255 ∧ 256 ≤ 256 ∧ 65535 ≤ 65535 ∧ 15 ≤ 15 := by decide

end Sys2Proof.Machine.Tests
end

section
/-! The bits of the datapath's word functions (rules R9, R70, R71, R76 to R79): one lemma for each
function, the sigmas' from those of `rotr` and `shr`. -/

namespace Sys2Proof.Machine

/-! ## Rotation and shift (rule R9) -/

/-- The two shifts of a rotation never meet: for `i + n < 32` the left shift has a 0 there, and otherwise
the right shift has. -/
theorem getLsbD_rotr (x : Word) {n i : Nat} (hpos : 0 < n) (hn : n < 32) (hi : i < 32) :
    (rotr x n).getLsbD i = x.getLsbD ((i + n) % 32) := by
  rw [rotr, BitVec.getLsbD_or, BitVec.getLsbD_ushiftRight, BitVec.getLsbD_shiftLeft]
  by_cases hin : i + n < 32
  · have hlow : i < 32 - n := by omega
    rw [Nat.mod_eq_of_lt hin, Nat.add_comm n i]
    simp [hlow]
  · have hhigh : ¬ i < 32 - n := by omega
    have hbit : (i + n) % 32 = i - (32 - n) := by omega
    have hout : x.getLsbD (n + i) = false := BitVec.getLsbD_of_ge x _ (by omega)
    simp [hi, hhigh, hbit, hout]

theorem getLsbD_shr (x : Word) (n i : Nat) :
    (shr x n).getLsbD i = (decide (i + n < 32) && x.getLsbD (i + n)) := by
  rw [shr, BitVec.getLsbD_ushiftRight, Nat.add_comm]
  by_cases hin : i + n < 32
  · simp [hin]
  · simp [hin, BitVec.getLsbD_of_ge x _ (Nat.not_lt.mp hin)]

/-! ## The sigmas (rules R70, R71, R76, R77) -/

/-- What the four sigmas share: each is the exclusive or of two rotations and a third term. -/
theorem getLsbD_rotr_xor_rotr_xor (x y : Word) {a b i : Nat} (ha : 0 < a ∧ a < 32)
    (hb : 0 < b ∧ b < 32) (hi : i < 32) :
    (rotr x a ^^^ rotr x b ^^^ y).getLsbD i =
      ((x.getLsbD ((i + a) % 32) ^^ x.getLsbD ((i + b) % 32)) ^^ y.getLsbD i) := by
  rw [BitVec.getLsbD_xor, BitVec.getLsbD_xor, getLsbD_rotr x ha.1 ha.2 hi, getLsbD_rotr x hb.1 hb.2 hi]

theorem getLsbD_smallSigma0 (x : Word) {i : Nat} (hi : i < 32) :
    (smallSigma0 x).getLsbD i =
      ((x.getLsbD ((i + 7) % 32) ^^ x.getLsbD ((i + 18) % 32)) ^^
        (decide (i + 3 < 32) && x.getLsbD (i + 3))) := by
  rw [smallSigma0, getLsbD_rotr_xor_rotr_xor x _ (by decide) (by decide) hi, getLsbD_shr]

theorem getLsbD_smallSigma1 (x : Word) {i : Nat} (hi : i < 32) :
    (smallSigma1 x).getLsbD i =
      ((x.getLsbD ((i + 17) % 32) ^^ x.getLsbD ((i + 19) % 32)) ^^
        (decide (i + 10 < 32) && x.getLsbD (i + 10))) := by
  rw [smallSigma1, getLsbD_rotr_xor_rotr_xor x _ (by decide) (by decide) hi, getLsbD_shr]

theorem getLsbD_bigSigma0 (x : Word) {i : Nat} (hi : i < 32) :
    (bigSigma0 x).getLsbD i =
      ((x.getLsbD ((i + 2) % 32) ^^ x.getLsbD ((i + 13) % 32)) ^^ x.getLsbD ((i + 22) % 32)) := by
  rw [bigSigma0, getLsbD_rotr_xor_rotr_xor x _ (by decide) (by decide) hi,
    getLsbD_rotr x (by decide) (by decide) hi]

theorem getLsbD_bigSigma1 (x : Word) {i : Nat} (hi : i < 32) :
    (bigSigma1 x).getLsbD i =
      ((x.getLsbD ((i + 6) % 32) ^^ x.getLsbD ((i + 11) % 32)) ^^ x.getLsbD ((i + 25) % 32)) := by
  rw [bigSigma1, getLsbD_rotr_xor_rotr_xor x _ (by decide) (by decide) hi,
    getLsbD_rotr x (by decide) (by decide) hi]

/-! ## Ch and Maj (rules R78, R79) -/

/-- The bit of `e` leaves only one of Ch's two conjunctions, so their exclusive or is a choice. -/
theorem getLsbD_ch (e f g : Word) {i : Nat} (hi : i < 32) :
    (ch e f g).getLsbD i = if e.getLsbD i then f.getLsbD i else g.getLsbD i := by
  rw [ch, BitVec.getLsbD_xor, BitVec.getLsbD_and, BitVec.getLsbD_and, BitVec.getLsbD_not,
    decide_eq_true hi]
  cases e.getLsbD i
  · simp
  · simp

/-- An exclusive or of the three pairwise conjunctions is their disjunction: two pairs that are both
1 make all three 1. -/
theorem getLsbD_maj (a b c : Word) (i : Nat) :
    (maj a b c).getLsbD i =
      (a.getLsbD i && b.getLsbD i || a.getLsbD i && c.getLsbD i || b.getLsbD i && c.getLsbD i) := by
  have xor_pairs_eq_or : ∀ p q r : Bool,
      ((p && q) ^^ (p && r) ^^ (q && r)) = (p && q || p && r || q && r) := by decide
  simp only [maj, BitVec.getLsbD_xor, BitVec.getLsbD_and]
  exact xor_pairs_eq_or _ _ _

/-- Settles O31: the bits of each word function, from its own lemma. -/
theorem wordFunctionsBitByBit : Obligations.WordFunctionsBitByBit :=
  ⟨fun x _ _ hpos hn hi => getLsbD_rotr x hpos hn hi,
    fun x n i _ _ _ => getLsbD_shr x n i,
    fun x _ hi => getLsbD_smallSigma0 x hi,
    fun x _ hi => getLsbD_smallSigma1 x hi,
    fun x _ hi => getLsbD_bigSigma0 x hi,
    fun x _ hi => getLsbD_bigSigma1 x hi,
    fun e f g _ hi => getLsbD_ch e f g hi,
    fun a b c i _ => getLsbD_maj a b c i⟩

end Sys2Proof.Machine
end

section
/-! What a step does when the engine has it, and when the engine can stop (rules R85, R94, R106). -/

namespace Sys2Proof.Machine

/-- Exactly the codes 9..15 have no name (rule R20). -/
theorem ofCode_eq_none_iff {c : PhaseCode} : Phase.ofCode c = none ↔ 9 ≤ c.toNat := by
  rcases code_cases c with ⟨p, rfl⟩ | ⟨hge, hnone⟩
  · have hle := code_toNat_le p
    exact iff_of_false (by simp) (by omega)
  · exact iff_of_true hnone hge

theorem not_ready {s : State} (hidle : s.phase.toNat ≠ 0) (hdone : s.phase.toNat ≠ 8) :
    s.ready = false := by
  rw [← Bool.not_eq_true, ready_iff]
  rintro (hp | hp)
  · exact hidle (by rw [hp]; rfl)
  · exact hdone (by rw [hp]; rfl)

theorem step_of_nil {s : State} (h : s.inputs = []) : step s = perform s.fetchEngine := by
  simp [step, State.fetch, h]

/-- While BUSY a presented command leaves the step to the engine (rules R13, R52). -/
theorem step_of_waiting_command {s : State} {w : CmdWord} {rest : List HostInput}
    (hb : s.ready = false) (h : s.inputs = .command w :: rest) : step s = perform s.fetchEngine := by
  rw [step, fetch_of_quiet (.inr ⟨w, rest, h⟩) hb]

theorem fetchEngine_of_ready {s : State} (hr : s.ready = true) : s.fetchEngine = .hold s := by
  rcases (ready_iff s).mp hr with hp | hp
  · rw [State.fetchEngine, hp]; rfl
  · rw [State.fetchEngine, hp]; rfl

theorem fetchEngine_of_decodePhase {s : State} {i : Instr} (h : decodePhase s.phase = .ok i) :
    s.fetchEngine = .run i s := by
  rw [State.fetchEngine, h]

theorem fetchEngine_of_unreachable {s : State} (h : 9 ≤ s.phase.toNat) :
    s.fetchEngine = .unreachable := by
  rw [State.fetchEngine, decodePhase, ofCode_eq_none_iff.mpr h]

/-- The three things the engine can do by itself, by PHASE (rule R85). -/
theorem fetchEngine_cases (s : State) :
    s.ready = true ∨ (∃ i, decodePhase s.phase = .ok i) ∨ 9 ≤ s.phase.toNat := by
  rcases code_cases s.phase with ⟨p, hp⟩ | ⟨hge, -⟩
  · rw [ready_iff, hp]
    cases p with
    | idle => exact .inl (.inl rfl)
    | done => exact .inl (.inr rfl)
    | pad | pad2 | loadw | sched | winit | round | fold => exact .inr (.inl ⟨_, rfl⟩)
  · exact .inr (.inr hge)

end Sys2Proof.Machine
end

section
/-! Rule R31's table with the clause of assumption log 10, one equation per row, and that every step
keeps it. -/

namespace Sys2Proof.Machine

/-! ## The rows of the table -/

/-- What the rows LOADW to FOLD share: a whole block in the buffer, a length field owed only while
finalising, and whole blocks counted unless finalising. -/
def State.BlockInv (s : State) : Prop :=
  s.nbuf = 64 ∧ (s.lenpend = true → s.fin = true) ∧ (s.fin = false → s.mlen.toNat % 64 = 0)

theorem inBlock_iff {s : State} {p : Phase} (hp : s.phase = p.code) :
    s.inBlock = true ↔ p ∈ [Phase.loadw, .sched, .winit, .round, .fold] := by
  rw [State.inBlock, hp]
  cases p <;> decide

theorem stepInv_idle {s : State} (hp : s.phase = Phase.idle.code) :
    s.StepInv ↔ s.nbuf.toNat ≤ 63 ∧ s.idx = 0 ∧ s.fin = false ∧ s.lenpend = false ∧
      s.mlen.toNat % 64 = s.nbuf.toNat := by
  simp [State.StepInv, State.Inv, inBlock_iff hp, hp]

theorem stepInv_pad {s : State} (hp : s.phase = Phase.pad.code) :
    s.StepInv ↔ s.nbuf.toNat ≤ 63 ∧ s.idx = 0 ∧ s.fin = true ∧ s.lenpend = false ∧
      s.mlen.toNat % 64 = s.nbuf.toNat := by
  simp [State.StepInv, State.Inv, inBlock_iff hp, hp]

theorem stepInv_pad2 {s : State} (hp : s.phase = Phase.pad2.code) :
    s.StepInv ↔ s.nbuf = 0 ∧ s.idx = 0 ∧ s.fin = true ∧ s.lenpend = true := by
  simp [State.StepInv, State.Inv, inBlock_iff hp, hp]

theorem stepInv_loadw {s : State} (hp : s.phase = Phase.loadw.code) :
    s.StepInv ↔ s.idx = 0 ∧ s.BlockInv := by
  simp [State.StepInv, State.Inv, inBlock_iff hp, State.BlockInv, hp, and_assoc, and_left_comm]

theorem stepInv_sched {s : State} (hp : s.phase = Phase.sched.code) :
    s.StepInv ↔ 16 ≤ s.idx.toNat ∧ s.BlockInv := by
  simp [State.StepInv, State.Inv, inBlock_iff hp, State.BlockInv, hp, and_assoc, and_left_comm]

theorem stepInv_winit {s : State} (hp : s.phase = Phase.winit.code) :
    s.StepInv ↔ s.idx = 0 ∧ s.BlockInv := by
  simp [State.StepInv, State.Inv, inBlock_iff hp, State.BlockInv, hp, and_assoc, and_left_comm]

theorem stepInv_round {s : State} (hp : s.phase = Phase.round.code) : s.StepInv ↔ s.BlockInv := by
  simp [State.StepInv, State.Inv, inBlock_iff hp, State.BlockInv, hp, and_assoc]

theorem stepInv_fold {s : State} (hp : s.phase = Phase.fold.code) :
    s.StepInv ↔ s.idx = 0 ∧ s.BlockInv := by
  simp [State.StepInv, State.Inv, inBlock_iff hp, State.BlockInv, hp, and_assoc, and_left_comm]

theorem stepInv_done {s : State} (hp : s.phase = Phase.done.code) :
    s.StepInv ↔ s.nbuf = 0 ∧ s.idx = 0 ∧ s.fin = false ∧ s.lenpend = false := by
  simp [State.StepInv, State.Inv, inBlock_iff hp, hp]

/-! ## Each operation keeps the table -/

section
variable {s t : State}

theorem stepInv_execPad (hp : s.phase = Phase.pad.code) (hs : s.StepInv) (h : exec .pad s = .next t) :
    t.StepInv := by
  obtain ⟨-, hidx, hfin, -, -⟩ := (stepInv_pad hp).mp hs
  obtain ⟨-, rfl⟩ := execPad_next.mp h
  exact (stepInv_loadw rfl).mpr ⟨hidx, rfl, fun _ => hfin, fun hf => by simp [hfin] at hf⟩

theorem stepInv_execPad2 (hp : s.phase = Phase.pad2.code) (hs : s.StepInv)
    (h : exec .pad2 s = .next t) : t.StepInv := by
  obtain ⟨-, hidx, hfin, -⟩ := (stepInv_pad2 hp).mp hs
  obtain rfl := Host.Outcome.next.inj h
  exact (stepInv_loadw rfl).mpr ⟨hidx, rfl, fun _ => hfin, fun hf => by simp [hfin] at hf⟩

theorem stepInv_execLoadw (hp : s.phase = Phase.loadw.code) (hs : s.StepInv)
    (h : exec .loadw s = .next t) : t.StepInv := by
  obtain ⟨-, hnbuf, hlen, hwhole⟩ := (stepInv_loadw hp).mp hs
  obtain rfl := Host.Outcome.next.inj h
  exact (stepInv_sched rfl).mpr ⟨Nat.le_refl 16, hnbuf, hlen, hwhole⟩

theorem stepInv_execSched (hp : s.phase = Phase.sched.code) (hs : s.StepInv)
    (h : exec .sched s = .next t) : t.StepInv := by
  obtain ⟨hidx, hblock⟩ := (stepInv_sched hp).mp hs
  obtain ⟨-, rfl⟩ := execSched_next.mp h
  by_cases hlast : s.idx = 63
  · exact (stepInv_winit (by simp [hlast])).mpr ⟨by simp [hlast], hblock⟩
  · exact (stepInv_sched (by simpa [hp] using hlast)).mpr ⟨by simp only; bv_omega, hblock⟩

theorem stepInv_execWinit (hp : s.phase = Phase.winit.code) (hs : s.StepInv)
    (h : exec .winit s = .next t) : t.StepInv := by
  obtain ⟨-, hblock⟩ := (stepInv_winit hp).mp hs
  obtain rfl := Host.Outcome.next.inj h
  exact (stepInv_round rfl).mpr hblock

theorem stepInv_execRound (hp : s.phase = Phase.round.code) (hs : s.StepInv)
    (h : exec .round s = .next t) : t.StepInv := by
  have hblock := (stepInv_round hp).mp hs
  obtain rfl := Host.Outcome.next.inj h
  by_cases hlast : s.idx = 63
  · exact (stepInv_fold (by simp [hlast])).mpr ⟨by simp [hlast], hblock⟩
  · exact (stepInv_round (by simpa [hp] using hlast)).mpr hblock

/-- FOLD's three ways out (rule R82). That IDLE asks `MLEN mod 64 = NBUF` is where the clause of
assumption log 10 is needed. -/
theorem stepInv_execFold (hp : s.phase = Phase.fold.code) (hs : s.StepInv)
    (h : exec .fold s = .next t) : t.StepInv := by
  obtain ⟨hidx, -, hlen, hwhole⟩ := (stepInv_fold hp).mp hs
  obtain rfl := Host.Outcome.next.inj h
  cases hfin : s.fin with
  | false =>
    have hlenpend : s.lenpend = false := by simpa [hfin] using hlen
    exact (stepInv_idle rfl).mpr ⟨Nat.zero_le _, hidx, rfl, hlenpend, hwhole hfin⟩
  | true =>
    cases hlenpend : s.lenpend with
    | false => exact (stepInv_done rfl).mpr ⟨rfl, hidx, rfl, rfl⟩
    | true => exact (stepInv_pad2 rfl).mpr ⟨rfl, hidx, rfl, rfl⟩

theorem stepInv_micro {i : Instr} (hd : decodePhase s.phase = .ok i) (hs : s.StepInv)
    (h : exec i s = .next t) : t.StepInv := by
  rcases decodePhase_ok hd with ⟨rfl, hp⟩ | ⟨rfl, hp⟩ | ⟨rfl, hp⟩ | ⟨rfl, hp⟩ | ⟨rfl, hp⟩ |
    ⟨rfl, hp⟩ | ⟨rfl, hp⟩
  · exact stepInv_execPad hp hs h
  · exact stepInv_execPad2 hp hs h
  · exact stepInv_execLoadw hp hs h
  · exact stepInv_execSched hp hs h
  · exact stepInv_execWinit hp hs h
  · exact stepInv_execRound hp hs h
  · exact stepInv_execFold hp hs h

/-- The table does not speak of the error flags. -/
theorem stepInv_raise (e : ErrFlag) (hs : s.StepInv) : (s.raise e).StepInv := by
  cases e <;> exact hs

theorem stepInv_startHash (s : State) : s.startHash.StepInv := (stepInv_idle rfl).mpr (by simp)

theorem stepInv_resetStep (s : State) : s.resetStep.StepInv :=
  (stepInv_idle rfl).mpr (by simp [State.reset])

/-- An accepted byte keeps `MLEN mod 64 = NBUF`, and the 64th leaves whole blocks (rule R98). -/
theorem stepInv_appendByte {d : Byte} (hp : s.phase = Phase.idle.code) (hs : s.StepInv)
    (hmax : s.mlen ≠ maxMlen) (hn : s.nbuf.toNat < 64) :
    (s.appendByte d s.nbuf.toNat hn).StepInv := by
  obtain ⟨-, hidx, hfin, hlenpend, hmlen⟩ := (stepInv_idle hp).mp hs
  have hcount : (s.mlen + 1).toNat = s.mlen.toNat + 1 := by
    rw [ne_eq, eq_maxMlen_iff] at hmax
    bv_omega
  by_cases hfull : s.nbuf.toNat + 1 = 64
  · refine (stepInv_loadw (by simp [hfull])).mpr ⟨hidx, ?_, by simp [hlenpend], fun _ => ?_⟩
    · simp only [State.appendByte_nbuf]; bv_omega
    · simp only [State.appendByte_mlen, hcount]; omega
  · have hnext : (s.nbuf + 1).toNat = s.nbuf.toNat + 1 := by bv_omega
    refine (stepInv_idle (by simp [hfull, hp])).mpr ⟨?_, hidx, hfin, hlenpend, ?_⟩
    · simp only [State.appendByte_nbuf, hnext]; omega
    · simp only [State.appendByte_nbuf, State.appendByte_mlen, hnext, hcount]; omega

theorem stepInv_command {w : CmdWord} (hr : s.ready = true) (hs : s.StepInv)
    (h : exec (decodeCommand w) s = .next t) : t.StepInv := by
  rcases exec_command_next hr h with ⟨-, rfl⟩ | ⟨-, rfl⟩ | ⟨-, hwrb⟩ | ⟨-, hfinal⟩ | ⟨-, rfl⟩
  · exact hs
  · exact stepInv_startHash s
  · rcases hwrb with ⟨-, rfl⟩ | ⟨-, -, rfl⟩ | ⟨hp, hmax, hn, rfl⟩
    · exact stepInv_raise .seq hs
    · exact stepInv_raise .len hs
    · exact stepInv_appendByte hp hs hmax hn
  · rcases hfinal with ⟨-, rfl⟩ | ⟨hp, rfl⟩
    · exact stepInv_raise .seq hs
    · obtain ⟨hnbuf, hidx, -, hlenpend, hmlen⟩ := (stepInv_idle hp).mp hs
      exact (stepInv_pad rfl).mpr ⟨hnbuf, hidx, rfl, hlenpend, hmlen⟩
  · exact stepInv_raise .op hs

end

/-- Settles O43: what the host presents and has read is no part of the table, and a reset, a command and
a micro-operation each keep it. -/
theorem stepKeepsTheInvariant : Obligations.StepKeepsTheInvariant := by
  intro s t hs h
  rcases step_next h with ⟨rest, -, rfl⟩ | ⟨w, rest, -, hr, h⟩ | ⟨sel, rest, rfl⟩ | ⟨rest, -, rfl⟩ |
    ⟨i, rest, hd, h⟩
  · exact stepInv_resetStep _
  · exact stepInv_command (s := { s with inputs := rest }) hr hs h
  · exact hs
  · exact hs
  · exact stepInv_micro (s := { s with inputs := rest }) hd hs h

end Sys2Proof.Machine
end

section
/-! Runs from reset: they stay in rule R31's table, where no step stops (rules R31, R102). -/

namespace Sys2Proof.Machine

/-! ## Reset and reachable states -/

theorem stepInv_reset (inputs : List HostInput) : State.StepInv { State.reset with inputs := inputs } :=
  stepInv_resetStep { State.reset with inputs := inputs }

/-- Settles O44: the reset state is an IDLE row of the table, and it has no flag raised. -/
theorem resetHasTheInvariant : Obligations.ResetHasTheInvariant :=
  fun inputs => ⟨stepInv_reset inputs, by simp [State.FaultsRecorded, State.reset]⟩

theorem stepInv_of_reachable {s : State} (h : Reachable s) : s.StepInv := by
  induction h with
  | reset inputs => exact stepInv_reset inputs
  | step _ hstep ih => exact stepKeepsTheInvariant _ _ ih hstep

/-- Settles O45: reachable states have the invariant, and `MLEN` has 61 bits. -/
theorem reachableStatesSatisfyTheTable : Obligations.ReachableStatesSatisfyTheTable :=
  fun s h => ⟨(stepInv_of_reachable h).1, Nat.le_pred_of_lt s.mlen.isLt⟩

/-! ## No step of the table stops -/

section
variable {s : State}

/-- Only PAD and SCHED can stop, and their rows of the table keep `NBUF` and `IDX` in range. -/
theorem micro_total {i : Instr} (hd : decodePhase s.phase = .ok i) (hs : s.StepInv) :
    ∃ t, exec i s = .next t := by
  rcases decodePhase_ok hd with ⟨rfl, hp⟩ | ⟨rfl, -⟩ | ⟨rfl, -⟩ | ⟨rfl, hp⟩ | ⟨rfl, -⟩ |
    ⟨rfl, -⟩ | ⟨rfl, -⟩
  · obtain ⟨hnbuf, -⟩ := (stepInv_pad hp).mp hs
    exact ⟨_, execPad_next.mpr ⟨by omega, rfl⟩⟩
  · exact ⟨_, rfl⟩
  · exact ⟨_, rfl⟩
  · obtain ⟨hidx, -⟩ := (stepInv_sched hp).mp hs
    exact ⟨_, execSched_next.mpr ⟨hidx, rfl⟩⟩
  · exact ⟨_, rfl⟩
  · exact ⟨_, rfl⟩
  · exact ⟨_, rfl⟩

/-- An accepted command can stop only at WRB's store, and IDLE keeps `NBUF` in range. -/
theorem command_total (w : CmdWord) (hr : s.ready = true) (hs : s.StepInv) :
    ∃ t, exec (decodeCommand w) s = .next t := by
  rcases opField_cases w with e | e | e | e | e
  · exact ⟨_, by rw [decodeCommand_nop e, exec, execNop, accept_of_ready hr]⟩
  · exact ⟨_, by rw [decodeCommand_init e, exec, execInit, accept_of_ready hr]⟩
  · rw [decodeCommand_wrb e, exec, execWrb, accept_of_ready hr]
    rcases (ready_iff s).mp hr with hp | hp
    · obtain ⟨hnbuf, -⟩ := (stepInv_idle hp).mp hs
      have hn : s.nbuf.toNat < 64 := by omega
      rw [if_neg (by simp [hp]), dif_pos hn]
      split <;> exact ⟨_, rfl⟩
    · exact ⟨_, if_pos hp⟩
  · rw [decodeCommand_final e, exec, execFinal, accept_of_ready hr]
    split <;> exact ⟨_, rfl⟩
  · exact ⟨_, by rw [decodeCommand_illegal e, exec, execIllegal, accept_of_ready hr]⟩

theorem engine_total (hs : s.StepInv) : ∃ t, perform s.fetchEngine = .next t := by
  rcases fetchEngine_cases s with hr | ⟨i, hd⟩ | hge
  · exact ⟨s, by rw [fetchEngine_of_ready hr, perform_hold]⟩
  · rw [fetchEngine_of_decodePhase hd, perform_run]
    exact micro_total hd hs
  · obtain ⟨hinv, -⟩ := hs
    simp [State.Inv, ofCode_eq_none_iff.mpr hge] at hinv

theorem step_total (hs : s.StepInv) : ∃ t, step s = .next t := by
  match hi : s.inputs with
  | [] => exact step_of_nil hi ▸ engine_total hs
  | .idle :: rest => exact step_of_idle hi ▸ engine_total (s := { s with inputs := rest }) hs
  | .reset :: rest => exact ⟨_, step_of_reset hi⟩
  | .read sel :: rest => exact ⟨_, step_of_read hi⟩
  | .poll c :: rest => exact ⟨_, step_of_poll hi⟩
  | .command w :: rest =>
    cases hr : s.ready with
    | true => exact step_of_command hr hi ▸ command_total (s := { s with inputs := rest }) w hr hs
    | false => exact step_of_waiting_command hr hi ▸ engine_total hs

end

/-- Settles O46: a reachable state is in the table, where no step stops. -/
theorem reachableStatesNeverStop : Obligations.ReachableStatesNeverStop :=
  fun _ h => step_total (stepInv_of_reachable h)

end Sys2Proof.Machine
end

section
/-! What is live in each phase (rules R30, R89), and that a step takes states which differ in dead values
only to states which do. -/

namespace Sys2Proof.Machine

/-! ## Live values, phase by phase -/

/-- States that agree on what is live differ at most in the three hidden registers. -/
theorem State.LiveEq.exists_hidden {s t : State} (hl : s.LiveEq t) :
    ∃ v w buf, t = { s with v := v, w := w, buf := buf } := by
  obtain ⟨h, nbuf, mlen, phase, idx, fin, lenpend, errOp, errSeq, errLen, faulted, inputs, reads, -⟩ := hl
  exact ⟨t.v, t.w, t.buf, by cases s; cases t; simp_all⟩

theorem liveEq_hidden_iff {s : State} {v : Vector Word 8} {w : Vector Word 64} {buf : Vector Byte 64} :
    s.LiveEq { s with v := v, w := w, buf := buf } ↔
      (∀ (k : Nat) (hk : k < 64), s.bufLive k = true → s.buf[k] = buf[k]) ∧
      (∀ (j : Nat) (hj : j < 64), s.wLive j = true → s.w[j] = w[j]) ∧ (s.vLive = true → s.v = v) :=
  ⟨fun hl => ⟨hl.buf, hl.w, hl.v⟩, fun ⟨hbuf, hw, hv⟩ =>
    ⟨rfl, rfl, rfl, rfl, rfl, rfl, rfl, rfl, rfl, rfl, rfl, rfl, rfl, hbuf, hw, hv⟩⟩

section
variable {s : State} {v : Vector Word 8} {w : Vector Word 64} {buf : Vector Byte 64}

/-- While the buffer fills and at PAD, only the bytes held are live. -/
theorem liveEq_filling (hp : s.phase = Phase.idle.code ∨ s.phase = Phase.pad.code) :
    s.LiveEq { s with v := v, w := w, buf := buf } ↔
      ∀ (k : Nat) (hk : k < 64), k < s.nbuf.toNat → s.buf[k] = buf[k] := by
  rw [liveEq_hidden_iff]
  rcases hp with hp | hp <;> simp [State.bufLive, State.wLive, State.vLive, hp]

/-- PAD2 and DONE read no hidden register. -/
theorem liveEq_dead (hp : s.phase = Phase.pad2.code ∨ s.phase = Phase.done.code) :
    s.LiveEq { s with v := v, w := w, buf := buf } := by
  rw [liveEq_hidden_iff]
  rcases hp with hp | hp <;> simp [State.bufLive, State.wLive, State.vLive, hp]

theorem liveEq_loadw (hp : s.phase = Phase.loadw.code) :
    s.LiveEq { s with v := v, w := w, buf := buf } ↔ s.buf = buf := by
  rw [liveEq_hidden_iff]
  simp [State.bufLive, State.wLive, State.vLive, hp, Vector.ext_iff]

theorem liveEq_sched (hp : s.phase = Phase.sched.code) :
    s.LiveEq { s with v := v, w := w, buf := buf } ↔
      ∀ (j : Nat) (hj : j < 64), j < s.idx.toNat → s.w[j] = w[j] := by
  rw [liveEq_hidden_iff]
  simp [State.bufLive, State.wLive, State.vLive, hp]

theorem liveEq_winit (hp : s.phase = Phase.winit.code) :
    s.LiveEq { s with v := v, w := w, buf := buf } ↔ s.w = w := by
  rw [liveEq_hidden_iff]
  simp [State.bufLive, State.wLive, State.vLive, hp, Vector.ext_iff]

theorem liveEq_round (hp : s.phase = Phase.round.code) :
    s.LiveEq { s with v := v, w := w, buf := buf } ↔
      (∀ (j : Nat) (hj : j < 64), s.idx.toNat ≤ j → s.w[j] = w[j]) ∧ s.v = v := by
  rw [liveEq_hidden_iff]
  simp [State.bufLive, State.wLive, State.vLive, hp]

theorem liveEq_fold (hp : s.phase = Phase.fold.code) :
    s.LiveEq { s with v := v, w := w, buf := buf } ↔ s.v = v := by
  rw [liveEq_hidden_iff]
  simp [State.bufLive, State.wLive, State.vLive, hp]

end

/-! ## What the datapath reads -/

/-- PAD keeps of the buffer the bytes held (rule R65). -/
theorem padBuf_congr {b b' : Vector Byte 64} {n : Nat} (mlen : BitVec 61)
    (h : ∀ (k : Nat) (hk : k < 64), k < n → b[k] = b'[k]) : padBuf b n mlen = padBuf b' n mlen := by
  apply Vector.ext
  intro k hk
  rw [getElem_padBuf, getElem_padBuf]
  by_cases hkn : k < n
  · rw [if_pos hkn, if_pos hkn, h k hk hkn]
  · rw [if_neg hkn, if_neg hkn]

/-- The derived word `W[i]` reads earlier words only (rule R73). -/
theorem schedWord_congr {w w' : Vector Word 64} {i : Nat} (hi : i < 64) (hpos : 16 ≤ i)
    (h : ∀ (j : Nat) (hj : j < 64), j < i → w[j] = w'[j]) : schedWord w i hi = schedWord w' i hi := by
  rw [schedWord, schedWord, h (i - 16) (by omega) (by omega), h (i - 15) (by omega) (by omega),
    h (i - 7) (by omega) (by omega), h (i - 2) (by omega) (by omega)]

/-- LOADW's first 16 words come from the block alone (rule R72). -/
theorem loadWords_low_congr (w w' : Vector Word 64) (buf : Vector Byte 64) {j : Nat} (hj : j < 16) :
    (loadWords w buf)[j] = (loadWords w' buf)[j] := by
  rw [getElem_loadWords_low _ _ _ hj, getElem_loadWords_low _ _ _ hj]

/-! ## Each operation keeps the agreement -/

/-- Outcomes that differ in dead values only, or are the same stop. -/
inductive Alike : Result → Result → Prop
  | next {s t : State} : s.LiveEq t → Alike (.next s) (.next t)
  | fault (f : Fault) : Alike (.fault f) (.fault f)
  | refused (r : Refusal) : Alike (.refused r) (.refused r)

theorem Alike.of_next {s : State} {r : Result} (h : Alike (.next s) r) :
    ∃ t, r = .next t ∧ s.LiveEq t := by
  cases h with
  | next hl => exact ⟨_, rfl, hl⟩

theorem Alike.of_fault {f : Fault} {r : Result} (h : Alike (.fault f) r) : r = .fault f := by
  cases h
  rfl

section
variable {s t : State}

theorem alike_execPad (hp : s.phase = Phase.pad.code) (hl : s.LiveEq t) :
    Alike (exec .pad s) (exec .pad t) := by
  obtain ⟨v, w, buf, rfl⟩ := hl.exists_hidden
  have hpad := padBuf_congr s.mlen ((liveEq_filling (.inr hp)).mp hl)
  by_cases hn : s.nbuf.toNat < 64
  · simp only [exec, execPad, if_pos hn]
    exact .next ((liveEq_loadw rfl).mpr hpad)
  · simp only [exec, execPad, if_neg hn]
    exact .fault _

theorem alike_execPad2 (hl : s.LiveEq t) : Alike (exec .pad2 s) (exec .pad2 t) := by
  obtain ⟨v, w, buf, rfl⟩ := hl.exists_hidden
  exact .next ((liveEq_loadw rfl).mpr rfl)

theorem alike_execLoadw (hp : s.phase = Phase.loadw.code) (hl : s.LiveEq t) :
    Alike (exec .loadw s) (exec .loadw t) := by
  obtain ⟨v, w, buf, rfl⟩ := hl.exists_hidden
  obtain rfl := (liveEq_loadw hp).mp hl
  exact .next ((liveEq_sched rfl).mpr fun j _ hj => loadWords_low_congr _ _ _ hj)

theorem alike_execSched (hp : s.phase = Phase.sched.code) (hl : s.LiveEq t) :
    Alike (exec .sched s) (exec .sched t) := by
  obtain ⟨v, w, buf, rfl⟩ := hl.exists_hidden
  have hw := (liveEq_sched hp).mp hl
  by_cases hidx : 16 ≤ s.idx.toNat
  · simp only [exec, execSched, if_pos hidx, ← schedWord_congr s.idx.isLt hidx hw]
    have hset : ∀ (j : Nat) (hj : j < 64), j ≤ s.idx.toNat →
        (s.w.set s.idx.toNat (schedWord s.w s.idx.toNat s.idx.isLt) s.idx.isLt)[j] =
          (w.set s.idx.toNat (schedWord s.w s.idx.toNat s.idx.isLt) s.idx.isLt)[j] := by
      intro j hj hle
      rw [Vector.getElem_set, Vector.getElem_set]
      split
      · rfl
      · exact hw j hj (by omega)
    by_cases hlast : s.idx = 63
    · refine .next ((liveEq_winit (by simp [hlast])).mpr (Vector.ext fun j hj => hset j hj ?_))
      rw [hlast]
      exact Nat.le_of_lt_succ hj
    · refine .next ((liveEq_sched (by simpa [hp] using hlast)).mpr fun j hj hlt => hset j hj ?_)
      simp only at hlt
      bv_omega
  · simp only [exec, execSched, if_neg hidx]
    exact .fault _

theorem alike_execWinit (hp : s.phase = Phase.winit.code) (hl : s.LiveEq t) :
    Alike (exec .winit s) (exec .winit t) := by
  obtain ⟨v, w, buf, rfl⟩ := hl.exists_hidden
  obtain rfl := (liveEq_winit hp).mp hl
  exact .next ((liveEq_round rfl).mpr ⟨fun _ _ _ => rfl, rfl⟩)

theorem alike_execRound (hp : s.phase = Phase.round.code) (hl : s.LiveEq t) :
    Alike (exec .round s) (exec .round t) := by
  obtain ⟨v, w, buf, rfl⟩ := hl.exists_hidden
  obtain ⟨hw, rfl⟩ := (liveEq_round hp).mp hl
  simp only [exec, execRound, ← hw _ s.idx.isLt (Nat.le_refl _)]
  by_cases hlast : s.idx = 63
  · exact .next ((liveEq_fold (by simp [hlast])).mpr rfl)
  · refine .next ((liveEq_round (by simpa [hp] using hlast)).mpr ⟨fun j hj hle => hw j hj ?_, rfl⟩)
    simp only at hle
    bv_omega

/-- After FOLD nothing hidden is live: in IDLE the buffer is empty (rule R82). -/
theorem alike_execFold (hp : s.phase = Phase.fold.code) (hl : s.LiveEq t) :
    Alike (exec .fold s) (exec .fold t) := by
  obtain ⟨v, w, buf, rfl⟩ := hl.exists_hidden
  obtain rfl := (liveEq_fold hp).mp hl
  simp only [exec, execFold]
  cases hfin : s.fin with
  | false => exact .next ((liveEq_filling (.inl rfl)).mpr fun _ _ hk => absurd hk (Nat.not_lt_zero _))
  | true =>
    cases hlenpend : s.lenpend with
    | false => exact .next (liveEq_dead (.inr rfl))
    | true => exact .next (liveEq_dead (.inl rfl))

theorem alike_micro {i : Instr} (hd : decodePhase s.phase = .ok i) (hl : s.LiveEq t) :
    Alike (exec i s) (exec i t) := by
  rcases decodePhase_ok hd with ⟨rfl, hp⟩ | ⟨rfl, -⟩ | ⟨rfl, hp⟩ | ⟨rfl, hp⟩ | ⟨rfl, hp⟩ |
    ⟨rfl, hp⟩ | ⟨rfl, hp⟩
  · exact alike_execPad hp hl
  · exact alike_execPad2 hl
  · exact alike_execLoadw hp hl
  · exact alike_execSched hp hl
  · exact alike_execWinit hp hl
  · exact alike_execRound hp hl
  · exact alike_execFold hp hl

/-! ## The host's operations -/

/-- What the host presents decides nothing about what is live. -/
theorem State.LiveEq.with_inputs (hl : s.LiveEq t) (l : List HostInput) :
    State.LiveEq { s with inputs := l } { t with inputs := l } :=
  { hl with inputs := rfl }

theorem State.LiveEq.ready_eq (hl : s.LiveEq t) : s.ready = t.ready := by
  rw [State.ready, State.ready, hl.phase]

theorem State.LiveEq.raise (hl : s.LiveEq t) (e : ErrFlag) : (s.raise e).LiveEq (t.raise e) := by
  cases e with
  | op => exact { hl with errOp := rfl, faulted := rfl }
  | seq => exact { hl with errSeq := rfl, faulted := rfl }
  | len => exact { hl with errLen := rfl, faulted := rfl }

theorem State.LiveEq.startHash (hl : s.LiveEq t) : s.startHash.LiveEq t.startHash := by
  obtain ⟨v, w, buf, rfl⟩ := hl.exists_hidden
  exact (liveEq_filling (.inl rfl)).mpr fun _ _ hk => absurd hk (Nat.not_lt_zero _)

theorem State.LiveEq.resetStep (hl : s.LiveEq t) : s.resetStep.LiveEq t.resetStep := by
  obtain ⟨v, w, buf, rfl⟩ := hl.exists_hidden
  exact (liveEq_filling (.inl rfl)).mpr fun _ _ _ => rfl

/-- The host reads no hidden register (rules R30, R42). -/
theorem State.LiveEq.hostRead (hl : s.LiveEq t) (sel : ReadSel) :
    (s.hostRead sel).LiveEq (t.hostRead sel) := by
  obtain ⟨v, w, buf, rfl⟩ := hl.exists_hidden
  exact { hl with reads := rfl }

/-- The byte stored is live after it, with those held before it. -/
theorem State.LiveEq.appendByte (hp : s.phase = Phase.idle.code) (hl : s.LiveEq t) (d : Byte)
    {n : Nat} (hn : n < 64) (hnbuf : s.nbuf.toNat = n) :
    (s.appendByte d n hn).LiveEq (t.appendByte d n hn) := by
  obtain ⟨v, w, buf, rfl⟩ := hl.exists_hidden
  have hbuf := (liveEq_filling (.inl hp)).mp hl
  have hset : ∀ (k : Nat) (hk : k < 64), k ≤ n → (s.buf.set n d)[k] = (buf.set n d)[k] := by
    intro k hk hle
    rw [Vector.getElem_set, Vector.getElem_set]
    split
    · rfl
    · exact hbuf k hk (by omega)
  by_cases hfull : n + 1 = 64
  · exact (liveEq_loadw (by simp [hfull])).mpr (Vector.ext fun k hk => hset k hk (by omega))
  · refine (liveEq_filling (.inl (by simp [hfull, hp]))).mpr fun k hk hlt => hset k hk ?_
    simp only [State.appendByte_nbuf] at hlt
    bv_omega

theorem alike_command (w : CmdWord) (hr : s.ready = true) (hl : s.LiveEq t) :
    Alike (exec (decodeCommand w) s) (exec (decodeCommand w) t) := by
  have hr' : t.ready = true := hl.ready_eq ▸ hr
  rcases opField_cases w with e | e | e | e | e
  · rw [decodeCommand_nop e, exec, exec, execNop, execNop, accept_of_ready hr, accept_of_ready hr']
    exact .next hl
  · rw [decodeCommand_init e, exec, exec, execInit, execInit, accept_of_ready hr, accept_of_ready hr']
    exact .next hl.startHash
  · rw [decodeCommand_wrb e, exec, exec, execWrb, execWrb, accept_of_ready hr, accept_of_ready hr']
    simp only [← hl.phase, ← hl.mlen, ← hl.nbuf]
    split
    · exact .next (hl.raise .seq)
    · have hp := ((ready_iff s).mp hr).resolve_right ‹_›
      split
      · exact .next (hl.raise .len)
      · split
        · exact .next (hl.appendByte hp _ _ rfl)
        · exact .fault _
  · rw [decodeCommand_final e, exec, exec, execFinal, execFinal, accept_of_ready hr, accept_of_ready hr']
    simp only [← hl.phase]
    split
    · exact .next (hl.raise .seq)
    · have hp := ((ready_iff s).mp hr).resolve_right ‹_›
      obtain ⟨v, w, buf, rfl⟩ := hl.exists_hidden
      exact .next ((liveEq_filling (.inr rfl)).mpr ((liveEq_filling (.inl hp)).mp hl))
  · rw [decodeCommand_illegal e, exec, exec, execIllegal, execIllegal, accept_of_ready hr,
      accept_of_ready hr']
    exact .next (hl.raise .op)

/-! ## A step -/

theorem alike_engine (hl : s.LiveEq t) : Alike (perform s.fetchEngine) (perform t.fetchEngine) := by
  rcases fetchEngine_cases s with hr | ⟨i, hd⟩ | hge
  · rw [fetchEngine_of_ready hr, fetchEngine_of_ready (hl.ready_eq ▸ hr)]
    exact .next hl
  · rw [fetchEngine_of_decodePhase hd, fetchEngine_of_decodePhase (hl.phase ▸ hd)]
    exact alike_micro hd hl
  · rw [fetchEngine_of_unreachable hge, fetchEngine_of_unreachable (hl.phase ▸ hge)]
    exact .fault _

theorem alike_step (hl : s.LiveEq t) : Alike (step s) (step t) := by
  have ht := hl.inputs
  match hi : s.inputs with
  | [] =>
    rw [step_of_nil hi, step_of_nil (ht ▸ hi)]
    exact alike_engine hl
  | .idle :: rest =>
    rw [step_of_idle hi, step_of_idle (ht ▸ hi)]
    exact alike_engine (hl.with_inputs rest)
  | .reset :: rest =>
    rw [step_of_reset hi, step_of_reset (ht ▸ hi)]
    exact .next (hl.with_inputs rest).resetStep
  | .read sel :: rest =>
    rw [step_of_read hi, step_of_read (ht ▸ hi)]
    exact .next ((hl.with_inputs rest).hostRead sel)
  | .poll c :: rest =>
    obtain ⟨v, w, buf, rfl⟩ := hl.exists_hidden
    rw [step_of_poll hi, step_of_poll (ht ▸ hi)]
    exact .next ((hl.with_inputs (s.pollRest c rest)).hostRead 8)
  | .command w :: rest =>
    cases hr : s.ready with
    | true =>
      rw [step_of_command hr hi, step_of_command (hl.ready_eq ▸ hr) (ht ▸ hi)]
      exact alike_command w hr (hl.with_inputs rest)
    | false =>
      rw [step_of_waiting_command hr hi, step_of_waiting_command (hl.ready_eq ▸ hr) (ht ▸ hi)]
      exact alike_engine hl

end

/-- Settles O57: the outcomes of the two steps are alike. -/
theorem deadValuesNeverMatter : Obligations.DeadValuesNeverMatter :=
  fun _ _ hl => ⟨fun _ h => (h ▸ alike_step hl).of_next, fun _ h => (h ▸ alike_step hl).of_fault⟩

end Sys2Proof.Machine
end

section
/-! The fields of the STATUS word (rule R25). -/

namespace Sys2Proof.Machine

/-! ## One bit of STATUS -/

theorem getLsbD_setWidth_shiftLeft {n : Nat} (x : BitVec n) (p : Nat) {i : Nat} (hi : i < 32) :
    (x.setWidth 32 <<< p).getLsbD i = (decide (p ≤ i) && x.getLsbD (i - p)) := by
  by_cases hp : p ≤ i
  · simp [hi, hp, Nat.not_lt.mpr hp]
  · simp [hp, Nat.not_le.mp hp]

theorem getLsbD_statusBit (b : Bool) (p : Nat) {i : Nat} (hi : i < 32) :
    (statusBit b p).getLsbD i = (decide (i = p) && b) := by
  rw [statusBit, getLsbD_setWidth_shiftLeft _ _ hi, BitVec.getLsbD_ofBool]
  by_cases hp : i = p
  · simp [hp]
  · have hout : ¬ (p ≤ i ∧ i - p = 0) := by omega
    cases b <;> simp_all

/-- What the ten fields of STATUS put at bit `i`. -/
theorem getLsbD_status (s : State) {i : Nat} (hi : i < 32) :
    s.status.getLsbD i =
      (decide (24 ≤ i) && s.idx.getLsbD (i - 24) || decide (16 ≤ i) && s.phase.getLsbD (i - 16) ||
        decide (8 ≤ i) && s.nbuf.getLsbD (i - 8) || decide (i = 6) && s.lenpend ||
        decide (i = 5) && s.fin || decide (i = 4) && s.errLen || decide (i = 3) && s.errSeq ||
        decide (i = 2) && s.errOp || decide (i = 1) && s.done || decide (i = 0) && s.busy) := by
  simp only [State.status, BitVec.getLsbD_or, getLsbD_setWidth_shiftLeft _ _ hi, getLsbD_statusBit _ _ hi]

/-- Bits 7:0 hold the seven flags, and no number reaches them. -/
theorem getLsbD_status_low (s : State) {i : Nat} (hi : i < 8) :
    s.status.getLsbD i = (decide (i = 6) && s.lenpend || decide (i = 5) && s.fin ||
      decide (i = 4) && s.errLen || decide (i = 3) && s.errSeq || decide (i = 2) && s.errOp ||
      decide (i = 1) && s.done || decide (i = 0) && s.busy) := by
  have hplace : ∀ p, 8 ≤ p → ¬ p ≤ i := fun p hp => by omega
  simp [getLsbD_status s (show i < 32 by omega), hplace]

/-- Bits 31:8 hold the three numbers, each alone from its place to the next one's. -/
theorem getLsbD_status_high (s : State) {i : Nat} (h8 : 8 ≤ i) (hi : i < 32) :
    s.status.getLsbD i =
      if i < 16 then s.nbuf.getLsbD (i - 8)
      else if i < 24 then s.phase.getLsbD (i - 16) else s.idx.getLsbD (i - 24) := by
  have hflag : ∀ p, p < 8 → i ≠ p := fun p hp => by omega
  rw [getLsbD_status s hi]
  by_cases h16 : i < 16
  · simp [h16, h8, hflag, show ¬ 24 ≤ i by omega, Nat.not_le.mpr h16]
  · have hnbuf : s.nbuf.getLsbD (i - 8) = false := BitVec.getLsbD_of_ge _ _ (by omega)
    by_cases h24 : i < 24
    · simp [h16, h24, hflag, hnbuf, Nat.not_lt.mp h16, Nat.not_le.mpr h24]
    · have hphase : s.phase.getLsbD (i - 16) = false := BitVec.getLsbD_of_ge _ _ (by omega)
      simp [h16, h24, hflag, hnbuf, hphase, Nat.not_lt.mp h24]

/-! ## The fields -/

/-- A field of `n` bits from bit `p` on is found bit by bit. -/
theorem extract_status_eq {s : State} {p n : Nat} {x : BitVec n}
    (h : ∀ i < n, s.status.getLsbD (p + i) = x.getLsbD i) : s.status.extractLsb' p n = x := by
  apply BitVec.eq_of_getLsbD_eq
  intro i hi
  rw [BitVec.getLsbD_extractLsb', decide_eq_true hi, Bool.true_and, h i hi]

theorem status_nbuf (s : State) : s.status.extractLsb' 8 7 = s.nbuf :=
  extract_status_eq fun i hi => by
    rw [getLsbD_status_high s (by omega) (by omega), if_pos (by omega), Nat.add_sub_cancel_left]

theorem status_phase (s : State) : s.status.extractLsb' 16 4 = s.phase :=
  extract_status_eq fun i hi => by
    rw [getLsbD_status_high s (by omega) (by omega), if_neg (by omega), if_pos (by omega),
      Nat.add_sub_cancel_left]

theorem status_idx (s : State) : s.status.extractLsb' 24 6 = s.idx :=
  extract_status_eq fun i hi => by
    rw [getLsbD_status_high s (by omega) (by omega), if_neg (by omega), if_neg (by omega),
      Nat.add_sub_cancel_left]

theorem status_reserved_15 (s : State) : s.status.getLsbD 15 = false := by
  rw [getLsbD_status_high s (by decide) (by decide), if_pos (by decide)]
  exact BitVec.getLsbD_of_ge _ _ (by decide)

theorem status_reserved_20 (s : State) : s.status.extractLsb' 20 4 = 0 :=
  extract_status_eq fun i hi => by
    rw [getLsbD_status_high s (by omega) (by omega), if_neg (by omega), if_pos (by omega),
      BitVec.getLsbD_of_ge _ _ (by omega)]
    exact BitVec.getLsbD_zero.symm

theorem status_reserved_30 (s : State) : s.status.extractLsb' 30 2 = 0 :=
  extract_status_eq fun i hi => by
    rw [getLsbD_status_high s (by omega) (by omega), if_neg (by omega), if_neg (by omega),
      BitVec.getLsbD_of_ge _ _ (by omega)]
    exact BitVec.getLsbD_zero.symm

theorem status_busy (s : State) : s.status.getLsbD 0 = s.busy := by
  rw [getLsbD_status_low s (by decide)]
  simp

theorem busy_eq_decide (s : State) :
    s.busy = decide (s.phase ≠ Phase.idle.code ∧ s.phase ≠ Phase.done.code) :=
  Bool.eq_iff_iff.mpr ((busy_iff s).trans decide_eq_true_iff.symm)

/-- Settles O18: each field from the lemma on its own bits. -/
theorem statusFields : Obligations.StatusFields := by
  intro s
  refine ⟨(status_busy s).trans (busy_eq_decide s), ?done, ?errOp, ?errSeq, ?errLen, ?fin, ?lenpend,
    ?reserved, status_nbuf s, status_reserved_15 s, status_phase s, status_reserved_20 s, status_idx s,
    status_reserved_30 s, fun hrst => ?ready, fun hrst => ?reset⟩
  case ready =>
    rw [State.cmdReady, hrst, status_busy, State.busy, Bool.not_not, Bool.not_false, Bool.true_and]
  case reset => rw [State.cmdReady, hrst, Bool.not_true, Bool.false_and]
  all_goals
    rw [getLsbD_status_low s (by decide)]
    simp [State.done, beq_eq_decide]

end Sys2Proof.Machine
end

section
/-! A command in a BUSY state: it has no effect of its own, and the engine's step is the one it takes
without it (rules R13, R52). -/

namespace Sys2Proof.Machine

/-! ## The command has no effect -/

theorem accept_of_busy {s : State} (hb : s.ready = false) (hp : s.phase.toNat ≤ 8) (effect : Result) :
    s.accept effect = .next s := by
  simp [State.accept, hb, hp]

/-- Every command is behind the handshake (rule R52). -/
theorem exec_command_eq_accept (w : CmdWord) (s : State) :
    ∃ effect, exec (decodeCommand w) s = s.accept effect := by
  rcases opField_cases w with e | e | e | e | e
  · exact ⟨_, by rw [decodeCommand_nop e, exec, execNop]⟩
  · exact ⟨_, by rw [decodeCommand_init e, exec, execInit]⟩
  · exact ⟨_, by rw [decodeCommand_wrb e, exec, execWrb]⟩
  · exact ⟨_, by rw [decodeCommand_final e, exec, execFinal]⟩
  · exact ⟨_, by rw [decodeCommand_illegal e, exec, execIllegal]⟩

/-- Settles O19: the phases 1 to 7 are neither IDLE nor DONE, and the handshake accepts nothing there. -/
theorem commandHasNoEffectWhileBusy : Obligations.CommandHasNoEffectWhileBusy := by
  intro s w hlow hhigh
  obtain ⟨effect, heffect⟩ := exec_command_eq_accept w s
  rw [heffect, accept_of_busy (not_ready (by omega) (by omega)) (by omega)]

/-! ## The engine's step does not read the host's list -/

/-- An outcome with another list of what the host presents in its next state. -/
def withInputs (l : List HostInput) : Result → Result
  | .next t => .next { t with inputs := l }
  | .fault f => .fault f
  | .refused r => .refused r

theorem exec_micro_with_inputs {s : State} {i : Instr} (hd : decodePhase s.phase = .ok i)
    (l : List HostInput) : exec i { s with inputs := l } = withInputs l (exec i s) := by
  rcases decodePhase_ok hd with ⟨rfl, -⟩ | ⟨rfl, -⟩ | ⟨rfl, -⟩ | ⟨rfl, -⟩ | ⟨rfl, -⟩ | ⟨rfl, -⟩ | ⟨rfl, -⟩
  · by_cases hn : s.nbuf.toNat < 64
    · simp only [exec, execPad, if_pos hn, withInputs]
    · simp only [exec, execPad, if_neg hn, withInputs]
  · rfl
  · rfl
  · by_cases hidx : 16 ≤ s.idx.toNat
    · simp only [exec, execSched, if_pos hidx, withInputs]
    · simp only [exec, execSched, if_neg hidx, withInputs]
  · rfl
  · rfl
  · rfl

theorem engine_with_inputs (s : State) (l : List HostInput) :
    perform (State.fetchEngine { s with inputs := l }) = withInputs l (perform s.fetchEngine) := by
  rcases fetchEngine_cases s with hr | ⟨i, hd⟩ | hge
  · rw [fetchEngine_of_ready hr, fetchEngine_of_ready (s := { s with inputs := l }) hr]
    rfl
  · rw [fetchEngine_of_decodePhase hd, fetchEngine_of_decodePhase (s := { s with inputs := l }) hd]
    exact exec_micro_with_inputs hd l
  · rw [fetchEngine_of_unreachable hge, fetchEngine_of_unreachable (s := { s with inputs := l }) hge]
    rfl

/-- Settles O9: with the command and without, the step is the engine's, which does not read it. -/
theorem commandWaitsWhileBusy : Obligations.CommandWaitsWhileBusy := by
  intro s w rest hidle hdone hi
  have hb : s.ready = false := by simp [State.ready, hidle, hdone]
  have hwait : step s = withInputs (.command w :: rest) (step { s with inputs := [] }) :=
    calc step s
      _ = perform (State.fetchEngine { s with inputs := .command w :: rest }) := by
        rw [with_inputs_self hi, step_of_waiting_command hb hi]
      _ = withInputs (.command w :: rest) (perform (State.fetchEngine { s with inputs := [] })) :=
        engine_with_inputs { s with inputs := [] } _
      _ = withInputs (.command w :: rest) (step { s with inputs := [] }) := by rw [step_of_nil rfl]
  rw [hwait]
  cases step { s with inputs := [] } <;> rfl

end Sys2Proof.Machine
end

section
/-! The error flags stay set but for INIT and reset (rules R24, R109). -/

namespace Sys2Proof.Machine

/-- Every error flag set in `s` is set in `t`. -/
def State.FlagsKept (s t : State) : Prop :=
  (s.errOp = true → t.errOp = true) ∧ (s.errSeq = true → t.errSeq = true) ∧
    (s.errLen = true → t.errLen = true)

theorem flagsKept_raise (s : State) (e : ErrFlag) : s.FlagsKept (s.raise e) :=
  ⟨fun h => by simp [h], fun h => by simp [h], fun h => by simp [h]⟩

section
variable {s t : State}

/-- No micro-operation writes an error flag or the fault record (rules R102, R110). -/
theorem micro_keeps_flags {i : Instr} (hd : decodePhase s.phase = .ok i) (h : exec i s = .next t) :
    t.errOp = s.errOp ∧ t.errSeq = s.errSeq ∧ t.errLen = s.errLen ∧ t.faulted = s.faulted := by
  rcases decodePhase_ok hd with ⟨rfl, -⟩ | ⟨rfl, -⟩ | ⟨rfl, -⟩ | ⟨rfl, -⟩ | ⟨rfl, -⟩ | ⟨rfl, -⟩ | ⟨rfl, -⟩
  · exact (execPad_next.mp h).2 ▸ ⟨rfl, rfl, rfl, rfl⟩
  · exact Host.Outcome.next.inj h ▸ ⟨rfl, rfl, rfl, rfl⟩
  · exact Host.Outcome.next.inj h ▸ ⟨rfl, rfl, rfl, rfl⟩
  · exact (execSched_next.mp h).2 ▸ ⟨rfl, rfl, rfl, rfl⟩
  · exact Host.Outcome.next.inj h ▸ ⟨rfl, rfl, rfl, rfl⟩
  · exact Host.Outcome.next.inj h ▸ ⟨rfl, rfl, rfl, rfl⟩
  · exact Host.Outcome.next.inj h ▸ ⟨rfl, rfl, rfl, rfl⟩

theorem flagsKept_micro {i : Instr} (hd : decodePhase s.phase = .ok i) (h : exec i s = .next t) :
    s.FlagsKept t := by
  obtain ⟨hop, hseq, hlen, -⟩ := micro_keeps_flags hd h
  exact ⟨hop.trans, hseq.trans, hlen.trans⟩

theorem flagsKept_command {w : CmdWord} (hr : s.ready = true) (h : exec (decodeCommand w) s = .next t) :
    opField w = 0x01 ∨ s.FlagsKept t := by
  rcases exec_command_next hr h with ⟨-, rfl⟩ | ⟨hinit, -⟩ | ⟨-, hwrb⟩ | ⟨-, hfinal⟩ | ⟨-, rfl⟩
  · exact .inr ⟨id, id, id⟩
  · exact .inl hinit
  · rcases hwrb with ⟨-, rfl⟩ | ⟨-, -, rfl⟩ | ⟨-, -, hn, rfl⟩
    · exact .inr (flagsKept_raise s .seq)
    · exact .inr (flagsKept_raise s .len)
    · exact .inr ⟨id, id, id⟩
  · rcases hfinal with ⟨-, rfl⟩ | ⟨-, rfl⟩
    · exact .inr (flagsKept_raise s .seq)
    · exact .inr ⟨id, id, id⟩
  · exact .inr (flagsKept_raise s .op)

theorem flagsKept_step (h : step s = .next t) :
    (∃ rest, s.inputs = .reset :: rest) ∨
    (∃ w rest, s.inputs = .command w :: rest ∧ opField w = 0x01 ∧ s.ready = true) ∨ s.FlagsKept t := by
  rcases step_next h with ⟨rest, hi, -⟩ | ⟨w, rest, hi, hr, h⟩ | ⟨sel, rest, rfl⟩ | ⟨rest, -, rfl⟩ |
    ⟨i, rest, hd, h⟩
  · exact .inl ⟨rest, hi⟩
  · rcases flagsKept_command (s := { s with inputs := rest }) hr h with hinit | hkept
    · exact .inr (.inl ⟨w, rest, hi, hinit, hr⟩)
    · exact .inr (.inr hkept)
  · exact .inr (.inr ⟨id, id, id⟩)
  · exact .inr (.inr ⟨id, id, id⟩)
  · exact .inr (.inr (flagsKept_micro (s := { s with inputs := rest }) hd h))

end

/-- Settles O40: every other step keeps the flags that are set. -/
theorem errorFlagsAreSticky : Obligations.ErrorFlagsAreSticky := by
  intro s t h hcleared
  rcases flagsKept_step h with hreset | ⟨w, rest, hi, hinit, hr⟩ | ⟨hop, hseq, hlen⟩
  · exact .inl hreset
  · exact .inr ⟨w, rest, hi, hinit, (ready_iff s).mp hr⟩
  · rcases hcleared with ⟨hs, ht⟩ | ⟨hs, ht⟩ | ⟨hs, ht⟩
    · simp [hop hs] at ht
    · simp [hseq hs] at ht
    · simp [hlen hs] at ht

end Sys2Proof.Machine
end

section
/-! The codes of PHASE, the values of reset, the states that stop, and the engines of a system (rules R20,
R29, R32, R106). -/

namespace Sys2Proof.Machine

/-- Settles O5: the codes are the definition's, and the codes without a name are 9..15. -/
theorem phaseRegisterCodes : Obligations.PhaseRegisterCodes :=
  ⟨rfl, rfl, rfl, rfl, rfl, rfl, rfl, rfl, rfl, ofCode_code, fun _ => ofCode_eq_none_iff.symm⟩

/-- Settles O11: the values are those `State.reset` writes out, and STATUS is computed from them. -/
theorem resetValues : Obligations.ResetValues :=
  ⟨fun _ _ => rfl, rfl, rfl, rfl, rfl, rfl, rfl, rfl, rfl, rfl, rfl, by decide⟩

theorem execPad_of_full {s : State} (hn : 64 ≤ s.nbuf.toNat) : execPad s = .fault .bufIndex :=
  if_neg (Nat.not_lt.mpr hn)

theorem execWrb_of_full {s : State} (d : Byte) (hn : 64 ≤ s.nbuf.toNat)
    (hp : s.phase = Phase.idle.code) (hmax : s.mlen ≠ maxMlen) : execWrb d s = .fault .bufIndex := by
  rw [execWrb, accept_of_ready ((ready_iff s).mpr (.inl hp)), if_neg (by simp [hp]), if_neg hmax,
    dif_neg (Nat.not_lt.mpr hn)]

theorem execSched_of_low {s : State} (hidx : s.idx.toNat < 16) : execSched s = .fault .schedIndex :=
  if_neg (Nat.not_le.mpr hidx)

/-- Settles O42: one lemma for each way to stop. -/
theorem unreachableStatesFault : Obligations.UnreachableStatesFault := by
  refine ⟨fun s hge hq => ?_, fun _ => execPad_of_full, fun s d hn hp hmlen => ?_,
    fun _ => execSched_of_low⟩
  · rw [step, fetch_of_quiet hq (not_ready (by omega) (by omega)), fetchEngine_of_unreachable hge,
      perform_unreachable]
  · refine execWrb_of_full d hn hp ?_
    rw [ne_eq, eq_maxMlen_iff]
    omega

theorem stepAt_next {sys sys' : System} {k : Fin sys.engines.length} (h : sys.stepAt k = .next sys') :
    ∃ t, step sys.engines[k] = .next t ∧ sys' = { engines := sys.engines.set k.val t } := by
  unfold System.stepAt at h
  split at h
  · exact ⟨_, ‹_›, (Host.Outcome.next.inj h).symm⟩
  · cases h
  · cases h

/-- Settles O59: the step puts one engine's next state in its place of the list. -/
theorem instancesAreIndependent : Obligations.InstancesAreIndependent := by
  intro sys sys' k h
  obtain ⟨t, ht, rfl⟩ := stepAt_next h
  exact ⟨List.length_set, ⟨t, ht, List.getElem?_set_self k.isLt⟩,
    fun j hj => List.getElem?_set_ne (Ne.symm hj)⟩

end Sys2Proof.Machine
end

section
/-! Which host operations have side effects, which are idempotent, and the byte order of the digest (rules
R37, R41, R90). -/

namespace Sys2Proof.Machine

/-! ## Side effects of the host's operations (rule R41) -/

section
variable {s t : State}

/-- The read map is a function of the registers, and a read changes none of them (rules R42, R101). -/
theorem readMap_hostRead (s : State) (sel sel' : ReadSel) :
    (s.hostRead sel).readMap sel' = s.readMap sel' := rfl

theorem execRd_next {sel : ReadSel} (h : exec (.rd sel) s = .next t) : t = s.hostRead sel :=
  (Host.Outcome.next.inj h).symm

theorem hostRead_hostRead (s : State) (sel : ReadSel) :
    (s.hostRead sel).hostRead sel =
      { s with reads := s.reads ++ [(sel, s.readMap sel), (sel, s.readMap sel)] } := by
  rw [State.hostRead, readMap_hostRead]
  simp [State.hostRead]

/-- An accepted byte counts one: below the limit `MLEN` does not wrap (rule R98). -/
theorem execWrb_mlen {d : Byte} (hp : s.phase = Phase.idle.code) (hmlen : s.mlen.toNat < 2 ^ 61 - 1)
    (h : exec (.wrb d) s = .next t) : t.mlen.toNat = s.mlen.toNat + 1 := by
  rcases execWrb_next h with ⟨hr, -⟩ | ⟨hdone, -⟩ | ⟨-, hmax, -⟩ | ⟨-, -, hn, rfl⟩
  · simp [State.ready, hp] at hr
  · simp [hp] at hdone
  · rw [eq_maxMlen_iff] at hmax
    omega
  · rw [State.appendByte_mlen]
    bv_omega

theorem execFinal_errSeq (hp : s.phase = Phase.done.code) (h : exec .final s = .next t) :
    t.errSeq = true := by
  rcases execFinal_next h with ⟨hr, -⟩ | ⟨-, rfl⟩ | ⟨hidle, -⟩
  · simp [State.ready, hp] at hr
  · simp
  · simp [hp] at hidle

theorem execInit_of_ready (hr : s.ready = true) : exec .init s = .next s.startHash :=
  accept_of_ready hr _

/-- INIT leaves the engine READY, and writes constants only (rule R97). -/
theorem execInit_idempotent (hr : s.ready = true) (h : exec .init s = .next t) :
    exec .init t = .next t := by
  obtain rfl := Host.Outcome.next.inj ((execInit_of_ready hr).symm.trans h)
  exact execInit_of_ready (s := s.startHash) rfl

end

/-- Settles O20: one lemma for each operation. -/
theorem sideEffectsAndIdempotency : Obligations.SideEffectsAndIdempotency := by
  refine ⟨fun s t u sel ht hu => ?read, fun _ _ _ => execWrb_mlen, fun _ _ => execFinal_errSeq,
    fun s _ hp => execInit_idempotent ((ready_iff s).mpr hp), fun _ _ => execNop_next⟩
  obtain rfl := execRd_next ht
  obtain rfl := execRd_next hu
  exact ⟨s.readMap sel, rfl, hostRead_hostRead s sel⟩

/-! ## The bytes of the digest (rules R37, R90) -/

theorem getElem?_be32bytes (x : Word) {k : Nat} (hk : k < 4) :
    (be32bytes x)[k]? = some (x.extractLsb' (24 - 8 * k) 8) := by
  match k, hk with
  | 0, _ | 1, _ | 2, _ | 3, _ => rfl

theorem length_flatMap_be32bytes (ws : List Word) : (ws.flatMap be32bytes).length = 4 * ws.length := by
  have hlen : ∀ x, (be32bytes x).length = 4 := fun _ => rfl
  simp [List.length_flatMap, hlen, Nat.mul_comm]

/-- Each word takes four places, so place `4 * j + k` is byte `k` of word `j`. -/
theorem getElem?_flatMap_be32bytes (ws : List Word) (j : Nat) (hj : j < ws.length) {k : Nat} (hk : k < 4) :
    (ws.flatMap be32bytes)[4 * j + k]? = some (ws[j].extractLsb' (24 - 8 * k) 8) := by
  induction ws generalizing j with
  | nil => cases hj
  | cons x ws ih =>
    have hlen : (be32bytes x).length = 4 := rfl
    rw [List.flatMap_cons]
    cases j with
    | zero =>
      rw [List.getElem?_append_left (by omega), Nat.mul_zero, Nat.zero_add]
      exact getElem?_be32bytes x hk
    | succ j =>
      rw [List.getElem?_append_right (by omega), hlen, show 4 * (j + 1) + k - 4 = 4 * j + k by omega]
      exact ih j (Nat.lt_of_succ_lt_succ hj)

/-- Settles O56: the digest is the eight words' bytes in a row. -/
theorem digestIsBigEndian : Obligations.DigestIsBigEndian := by
  intro h
  have hlen : h.toList.length = 8 := h.length_toList
  refine ⟨?length, fun j k hj hk => ?byte⟩
  case length => rw [digestBytes, length_flatMap_be32bytes, hlen]
  case byte =>
    rw [digestBytes, getElem?_flatMap_be32bytes h.toList j (by omega) hk, Vector.getElem_toList]

end Sys2Proof.Machine
end

section
/-! The encoder and the decoder undo each other, and what the assembler's lines and a step do with a word
(rules R52 to R62). -/

namespace Sys2Proof.Machine

/-! ## Encode, then decode -/

/-- Settles O1: a command's opcode field is the one its word was built with, a selector and a code are
themselves, and the word of a well-formed illegal command decodes by its own opcode. -/
theorem encodeThenDecodeGivesTheOperation : Obligations.EncodeThenDecodeGivesTheOperation := by
  intro i hi
  cases i with
  | nop => exact congrArg _ (decodeCommand_nop (opField_commandWord 0x00 0x00))
  | init => exact congrArg _ (decodeCommand_init (opField_commandWord 0x00 0x01))
  | wrb d =>
    have hdec := decodeCommand_wrb (opField_commandWord d 0x02)
    rw [dataField_commandWord] at hdec
    exact congrArg _ hdec
  | final => exact congrArg _ (decodeCommand_final (opField_commandWord 0x00 0x03))
  | illegal w => exact congrArg _ (decodeCommand_illegal hi)
  | rd sel => rfl
  | pad | pad2 | loadw | sched | winit | round | fold => rfl

/-! ## Decode, then encode -/

/-- A command's encoding carries its opcode, and its operand unless the command ignores it (rule R55). -/
theorem encode_decodeCommand (w : CmdWord) :
    encode (decodeCommand w) = .cmd16 w ∨
      (encode (decodeCommand w) = .cmd16 (commandWord 0x00 (opField w)) ∧
        (decodeCommand w = .nop ∨ decodeCommand w = .init ∨ decodeCommand w = .final)) := by
  rcases opField_cases w with e | e | e | e | e
  · rw [decodeCommand_nop e, e]; exact .inr ⟨rfl, .inl rfl⟩
  · rw [decodeCommand_init e, e]; exact .inr ⟨rfl, .inr (.inl rfl)⟩
  · rw [decodeCommand_wrb e, encode, ← e, commandWord_fields]; exact .inl rfl
  · rw [decodeCommand_final e, e]; exact .inr ⟨rfl, .inr (.inr rfl)⟩
  · rw [decodeCommand_illegal e]; exact .inl rfl

theorem wellFormed_decodeCommand (w : CmdWord) : (decodeCommand w).WellFormed := by
  rcases opField_cases w with e | e | e | e | e
  · rw [decodeCommand_nop e]; trivial
  · rw [decodeCommand_init e]; trivial
  · rw [decodeCommand_wrb e]; trivial
  · rw [decodeCommand_final e]; trivial
  · rw [decodeCommand_illegal e]; exact e

/-- A code that selects a micro-operation is that operation's own (rule R59). -/
theorem encode_of_decodePhase {p : PhaseCode} {i : Instr} (h : decodePhase p = .ok i) :
    i.WellFormed ∧ encode i = .phase p := by
  rcases decodePhase_ok h with ⟨rfl, rfl⟩ | ⟨rfl, rfl⟩ | ⟨rfl, rfl⟩ | ⟨rfl, rfl⟩ | ⟨rfl, rfl⟩ |
    ⟨rfl, rfl⟩ | ⟨rfl, rfl⟩
  all_goals exact ⟨trivial, rfl⟩

/-- Settles O2: format by format; only a command can lose bits, those of its ignored operand. -/
theorem decodeThenEncodeKeepsTheBits : Obligations.DecodeThenEncodeKeepsTheBits := by
  intro e i h
  cases e with
  | cmd16 w =>
    obtain rfl := Except.ok.inj h
    refine ⟨wellFormed_decodeCommand w, (encode_decodeCommand w).imp_right fun ⟨henc, hi⟩ => ?_⟩
    exact ⟨dataField w, opField w, by rw [commandWord_fields], henc, hi⟩
  | rsel sel =>
    obtain rfl := Except.ok.inj h
    exact ⟨trivial, .inl rfl⟩
  | phase p =>
    obtain ⟨hwf, henc⟩ := encode_of_decodePhase h
    exact ⟨hwf, .inl henc⟩

/-! ## The command decoder and written words -/

/-- Settles O3: the decoder's lemma for each opcode. -/
theorem commandDecodingIsTotal : Obligations.CommandDecodingIsTotal := fun _ =>
  ⟨fun h => congrArg _ (decodeCommand_nop h), fun h => congrArg _ (decodeCommand_init h),
    fun h => congrArg _ (decodeCommand_wrb h), fun h => congrArg _ (decodeCommand_final h),
    fun h => congrArg _ (decodeCommand_illegal h)⟩

/-- Settles O4: each clause decodes one closed word. -/
theorem writtenWordsDecode : Obligations.WrittenWordsDecode := by
  unfold Obligations.WrittenWordsDecode
  decide

/-! ## The assembler's lines (rule R61) -/

/-- `data << 8 | op` as a number: the fields of `n * 256 + op` are `n` and `op`, each modulo its width. -/
theorem commandWord_ofNat (n : Nat) (op : BitVec 8) :
    commandWord (BitVec.ofNat 8 n) op = BitVec.ofNat 16 (n * 256 + op.toNat) := by
  have hop := op.isLt
  have hdata : dataField (BitVec.ofNat 16 (n * 256 + op.toNat)) = BitVec.ofNat 8 n := by
    apply BitVec.eq_of_toNat_eq
    simp only [dataField, BitVec.extractLsb'_toNat, BitVec.toNat_ofNat, Nat.shiftRight_eq_div_pow]
    omega
  have hopcode : opField (BitVec.ofNat 16 (n * 256 + op.toNat)) = op := by
    apply BitVec.eq_of_toNat_eq
    simp only [opField, BitVec.extractLsb'_toNat, BitVec.toNat_ofNat, Nat.shiftRight_zero]
    omega
  rw [← commandWord_fields (BitVec.ofNat 16 (n * 256 + op.toNat)), hdata, hopcode]

/-- Settles O60: each form's range check, and the word of WRB. -/
theorem assemblerLines : Obligations.AssemblerLines := by
  refine ⟨rfl, rfl, fun n hn => ?wrb, fun n hn => ?refused, rfl, fun n hn => ?cmd, fun n hn => ?rd⟩
  case wrb => rw [AsmLine.expand, if_pos hn, commandWord_ofNat]; rfl
  case refused => exact if_neg (by omega)
  case cmd => exact if_pos hn
  case rd => exact if_pos hn

/-! ## What a step runs -/

/-- Settles O7: the lemma on the step of each thing the host can present. -/
theorem stepRunsTheDecodedOperation : Obligations.StepRunsTheDecodedOperation := by
  refine ⟨fun s i rest hd => ⟨fun hi => ?nothing, fun w hi => ?waiting, fun hi => ?idle⟩,
    fun s w i rest hp hi hd => ?command, fun s sel i rest hi hd => ?read, fun s c rest hi => step_of_poll hi⟩
  case nothing => exact step_of_decodePhase (.inl hi) hd
  case waiting => exact step_of_decodePhase (.inr ⟨w, rest, hi⟩) hd
  case idle =>
    rw [step_of_idle hi, fetchEngine_of_decodePhase (s := { s with inputs := rest }) hd, perform_run]
  case command =>
    obtain rfl := Except.ok.inj hd
    exact step_of_command ((ready_iff s).mpr hp) hi
  case read =>
    obtain rfl := Except.ok.inj hd
    exact step_of_read hi

end Sys2Proof.Machine
end

section
/-! How many steps the engine still takes before it is READY, and that a polling loop, which gives the engine
every other step, takes twice as many and one (rules R62, R87, R92). -/

namespace Sys2Proof.Machine

/-! ## Steps to READY (rules R87, R92) -/

/-- What the engine's own steps need of a state: a phase of rule R20, the indices of PAD and SCHED in range,
and no finalisation left open in IDLE. -/
def State.EngineOk (s : State) : Prop :=
  s.phase.toNat ≤ 8 ∧ (s.phase = Phase.pad.code → s.nbuf.toNat < 64) ∧
    (s.phase = Phase.sched.code → 16 ≤ s.idx.toNat) ∧ (s.phase = Phase.idle.code → s.fin = false)

/-- The steps of the block that FOLD leaves to PAD2 (rule R82). -/
def State.stepsOwed (s : State) : Nat := if s.fin = true ∧ s.lenpend = true then 116 else 0

/-- The engine steps before READY: those of the block in the datapath, and of the one still owed. -/
def State.stepsToReady (s : State) : Nat :=
  match Phase.ofCode s.phase with
  | some .pad => 116 + if s.fin = true ∧ 56 ≤ s.nbuf.toNat then 116 else 0
  | some .pad2 => 116
  | some .loadw => 115 + s.stepsOwed
  | some .sched => 130 - s.idx.toNat + s.stepsOwed
  | some .winit => 66 + s.stepsOwed
  | some .round => 65 - s.idx.toNat + s.stepsOwed
  | some .fold => 1 + s.stepsOwed
  | some .idle => 0
  | some .done => 0
  | none => 0

/-- The message is being finished, or is. -/
def State.Finalising (s : State) : Prop := s.fin = true ∨ s.phase = Phase.done.code

section
variable {s : State}

theorem stepsToReady_idle (hp : s.phase = Phase.idle.code) : s.stepsToReady = 0 := by
  simp [State.stepsToReady, hp]

theorem stepsToReady_pad (hp : s.phase = Phase.pad.code) :
    s.stepsToReady = 116 + if s.fin = true ∧ 56 ≤ s.nbuf.toNat then 116 else 0 := by
  simp [State.stepsToReady, hp]

theorem stepsToReady_pad2 (hp : s.phase = Phase.pad2.code) : s.stepsToReady = 116 := by
  simp [State.stepsToReady, hp]

theorem stepsToReady_loadw (hp : s.phase = Phase.loadw.code) : s.stepsToReady = 115 + s.stepsOwed := by
  simp [State.stepsToReady, hp]

theorem stepsToReady_sched (hp : s.phase = Phase.sched.code) :
    s.stepsToReady = 130 - s.idx.toNat + s.stepsOwed := by
  simp [State.stepsToReady, hp]

theorem stepsToReady_winit (hp : s.phase = Phase.winit.code) : s.stepsToReady = 66 + s.stepsOwed := by
  simp [State.stepsToReady, hp]

theorem stepsToReady_round (hp : s.phase = Phase.round.code) :
    s.stepsToReady = 65 - s.idx.toNat + s.stepsOwed := by
  simp [State.stepsToReady, hp]

theorem stepsToReady_fold (hp : s.phase = Phase.fold.code) : s.stepsToReady = 1 + s.stepsOwed := by
  simp [State.stepsToReady, hp]

theorem stepsToReady_done (hp : s.phase = Phase.done.code) : s.stepsToReady = 0 := by
  simp [State.stepsToReady, hp]

theorem stepsOwed_le (s : State) : s.stepsOwed ≤ 116 := by
  unfold State.stepsOwed
  split <;> omega

/-- No wait is longer than that for two blocks and PAD before them, PAD2 between (rule R92). -/
theorem stepsToReady_le (hs : s.EngineOk) : s.stepsToReady ≤ 232 := by
  have howed := stepsOwed_le s
  rcases code_cases s.phase with ⟨p, hp⟩ | ⟨hge, hnone⟩
  · cases p with
    | idle => rw [stepsToReady_idle hp]; omega
    | pad => rw [stepsToReady_pad hp]; split <;> omega
    | pad2 => rw [stepsToReady_pad2 hp]; omega
    | loadw => rw [stepsToReady_loadw hp]; omega
    | sched =>
      obtain ⟨-, -, hsched, -⟩ := hs
      have hidx := hsched hp
      rw [stepsToReady_sched hp]; omega
    | winit => rw [stepsToReady_winit hp]; omega
    | round => rw [stepsToReady_round hp]; omega
    | fold => rw [stepsToReady_fold hp]; omega
    | done => rw [stepsToReady_done hp]; omega
  · simp [State.stepsToReady, hnone]

theorem engineOk_of_phase {p : Phase} (hp : s.phase = p.code)
    (h : p ≠ .pad ∧ p ≠ .sched ∧ p ≠ .idle) : s.EngineOk := by
  obtain ⟨hpad, hsched, hidle⟩ := h
  exact ⟨hp ▸ code_toNat_le p, by simp [hp, hpad], by simp [hp, hsched], by simp [hp, hidle]⟩

theorem engineOk_pad (hp : s.phase = Phase.pad.code) (hnbuf : s.nbuf.toNat < 64) : s.EngineOk :=
  ⟨hp ▸ code_toNat_le _, fun _ => hnbuf, by simp [hp], by simp [hp]⟩

theorem engineOk_sched (hp : s.phase = Phase.sched.code) (hidx : 16 ≤ s.idx.toNat) : s.EngineOk :=
  ⟨hp ▸ code_toNat_le _, by simp [hp], fun _ => hidx, by simp [hp]⟩

/-- Rule R31's table gives what the engine needs. -/
theorem engineOk_of_inv (hs : s.Inv) : s.EngineOk := by
  rcases code_cases s.phase with ⟨p, hp⟩ | ⟨-, hnone⟩
  · simp only [State.Inv, hp, ofCode_code] at hs
    cases p with
    | idle =>
      obtain ⟨-, -, hfin, -⟩ := hs
      exact ⟨hp ▸ code_toNat_le _, by simp [hp], by simp [hp], fun _ => hfin⟩
    | pad =>
      obtain ⟨hnbuf, -⟩ := hs
      exact engineOk_pad hp (by omega)
    | sched =>
      obtain ⟨-, hidx, -⟩ := hs
      exact engineOk_sched hp hidx
    | pad2 | loadw | winit | round | fold | done => exact engineOk_of_phase hp (by decide)
  · simp [State.Inv, hnone] at hs

end

theorem not_ready_of_decodePhase {s : State} {i : Instr} (hd : decodePhase s.phase = .ok i) :
    s.ready = false := by
  rw [← Bool.not_eq_true, ready_iff]
  rintro (h | h) <;> rw [h] at hd <;> cases hd

/-! ## Each micro-operation is one step nearer -/

/-- From `s` to `t` the engine has come one step nearer to READY, and finalises still if it did. -/
def State.CountsDown (s t : State) : Prop :=
  t.EngineOk ∧ s.stepsToReady = t.stepsToReady + 1 ∧ (s.Finalising → t.Finalising)

section
variable {s : State}

/-- Only FOLD writes FIN while BUSY. -/
theorem countsDown_of_fin_eq {t : State} (hbusy : s.phase ≠ Phase.done.code) (hfin : t.fin = s.fin)
    (hok : t.EngineOk) (hsteps : s.stepsToReady = t.stepsToReady + 1) : s.CountsDown t :=
  ⟨hok, hsteps, fun hf => .inl (hfin.trans (hf.resolve_right hbusy))⟩

theorem countsDown_execPad (hp : s.phase = Phase.pad.code) (hs : s.EngineOk) :
    ∃ t, exec .pad s = .next t ∧ s.CountsDown t := by
  obtain ⟨-, hnbuf, -, -⟩ := hs
  refine ⟨_, execPad_next.mpr ⟨hnbuf hp, rfl⟩, countsDown_of_fin_eq (by simp [hp]) rfl
    (engineOk_of_phase (p := .loadw) rfl (by decide)) ?_⟩
  rw [stepsToReady_pad hp, stepsToReady_loadw rfl]
  simp only [State.stepsOwed, decide_eq_true_eq]
  omega

theorem countsDown_execPad2 (hp : s.phase = Phase.pad2.code) :
    ∃ t, exec .pad2 s = .next t ∧ s.CountsDown t := by
  refine ⟨_, rfl, countsDown_of_fin_eq (by simp [hp]) rfl
    (engineOk_of_phase (p := .loadw) rfl (by decide)) ?_⟩
  rw [stepsToReady_pad2 hp, stepsToReady_loadw rfl]
  simp [State.stepsOwed]

theorem countsDown_execLoadw (hp : s.phase = Phase.loadw.code) :
    ∃ t, exec .loadw s = .next t ∧ s.CountsDown t := by
  refine ⟨_, rfl, countsDown_of_fin_eq (by simp [hp]) rfl (engineOk_sched rfl (Nat.le_refl 16)) ?_⟩
  have hidx : (16 : BitVec 6).toNat = 16 := rfl
  rw [stepsToReady_loadw hp, stepsToReady_sched rfl, hidx]
  simp only [State.stepsOwed]
  omega

theorem countsDown_execSched (hp : s.phase = Phase.sched.code) (hs : s.EngineOk) :
    ∃ t, exec .sched s = .next t ∧ s.CountsDown t := by
  obtain ⟨-, -, hsched, -⟩ := hs
  have hidx := hsched hp
  refine ⟨_, execSched_next.mpr ⟨hidx, rfl⟩, ?_⟩
  by_cases hlast : s.idx = 63
  · have hp' : (if s.idx = 63 then Phase.winit.code else s.phase) = Phase.winit.code := if_pos hlast
    refine countsDown_of_fin_eq (by simp [hp]) rfl (engineOk_of_phase hp' (by decide)) ?_
    rw [stepsToReady_sched hp, stepsToReady_winit hp']
    simp only [State.stepsOwed]
    bv_omega
  · have hp' : (if s.idx = 63 then Phase.winit.code else s.phase) = Phase.sched.code :=
      (if_neg hlast).trans hp
    have hnext : (s.idx + 1).toNat = s.idx.toNat + 1 := by bv_omega
    refine countsDown_of_fin_eq (by simp [hp]) rfl (engineOk_sched hp' (by simp only [hnext]; omega)) ?_
    rw [stepsToReady_sched hp, stepsToReady_sched hp', hnext]
    simp only [State.stepsOwed]
    omega

theorem countsDown_execWinit (hp : s.phase = Phase.winit.code) :
    ∃ t, exec .winit s = .next t ∧ s.CountsDown t := by
  refine ⟨_, rfl, countsDown_of_fin_eq (by simp [hp]) rfl
    (engineOk_of_phase (p := .round) rfl (by decide)) ?_⟩
  have hidx : (0 : BitVec 6).toNat = 0 := rfl
  rw [stepsToReady_winit hp, stepsToReady_round rfl, hidx]
  simp only [State.stepsOwed]
  omega

theorem countsDown_execRound (hp : s.phase = Phase.round.code) :
    ∃ t, exec .round s = .next t ∧ s.CountsDown t := by
  refine ⟨_, rfl, ?_⟩
  by_cases hlast : s.idx = 63
  · have hp' : (if s.idx = 63 then Phase.fold.code else s.phase) = Phase.fold.code := if_pos hlast
    refine countsDown_of_fin_eq (by simp [hp]) rfl (engineOk_of_phase hp' (by decide)) ?_
    rw [stepsToReady_round hp, stepsToReady_fold hp']
    simp only [State.stepsOwed]
    bv_omega
  · have hp' : (if s.idx = 63 then Phase.fold.code else s.phase) = Phase.round.code :=
      (if_neg hlast).trans hp
    have hnext : (s.idx + 1).toNat = s.idx.toNat + 1 := by bv_omega
    refine countsDown_of_fin_eq (by simp [hp]) rfl (engineOk_of_phase hp' (by decide)) ?_
    rw [stepsToReady_round hp, stepsToReady_round hp', hnext]
    simp only [State.stepsOwed]
    omega

/-- FOLD's three ways out (rule R82). -/
theorem countsDown_execFold (hp : s.phase = Phase.fold.code) :
    ∃ t, exec .fold s = .next t ∧ s.CountsDown t := by
  refine ⟨_, rfl, ?_⟩
  have hsteps := stepsToReady_fold hp
  cases hfin : s.fin with
  | false =>
    refine ⟨⟨Nat.zero_le _, nofun, nofun, fun _ => rfl⟩, ?_, ?_⟩
    · rw [hsteps, stepsToReady_idle rfl]
      simp [State.stepsOwed, hfin]
    · simp [State.Finalising, hfin, hp]
  | true =>
    cases hlenpend : s.lenpend with
    | false =>
      refine ⟨engineOk_of_phase (p := .done) rfl (by decide), ?_, fun _ => .inr rfl⟩
      rw [hsteps, stepsToReady_done rfl]
      simp [State.stepsOwed, hlenpend]
    | true =>
      refine ⟨engineOk_of_phase (p := .pad2) rfl (by decide), ?_, fun _ => .inl rfl⟩
      rw [hsteps, stepsToReady_pad2 rfl]
      simp [State.stepsOwed, hfin, hlenpend]

theorem countsDown_micro {i : Instr} (hd : decodePhase s.phase = .ok i) (hs : s.EngineOk) :
    ∃ t, exec i s = .next t ∧ s.CountsDown t := by
  rcases decodePhase_ok hd with ⟨rfl, hp⟩ | ⟨rfl, hp⟩ | ⟨rfl, hp⟩ | ⟨rfl, hp⟩ | ⟨rfl, hp⟩ |
    ⟨rfl, hp⟩ | ⟨rfl, hp⟩
  · exact countsDown_execPad hp hs
  · exact countsDown_execPad2 hp
  · exact countsDown_execLoadw hp
  · exact countsDown_execSched hp hs
  · exact countsDown_execWinit hp
  · exact countsDown_execRound hp
  · exact countsDown_execFold hp

/-- READY is where nothing is left to count. -/
theorem stepsToReady_eq_zero_iff (hs : s.EngineOk) : s.stepsToReady = 0 ↔ s.ready = true := by
  rcases fetchEngine_cases s with hr | ⟨i, hd⟩ | hge
  · rcases (ready_iff s).mp hr with hp | hp
    · exact iff_of_true (stepsToReady_idle hp) hr
    · exact iff_of_true (stepsToReady_done hp) hr
  · obtain ⟨t, -, -, hsteps, -⟩ := countsDown_micro hd hs
    exact iff_of_false (by omega) (by simp [not_ready_of_decodePhase hd])
  · obtain ⟨hle, -⟩ := hs
    omega

/-! ## The engine by itself -/

/-- In a BUSY state the engine's step counts down. -/
theorem countsDown_engine (hb : s.ready = false) (hs : s.EngineOk) :
    ∃ t, perform s.fetchEngine = .next t ∧ s.CountsDown t := by
  rcases fetchEngine_cases s with hr | ⟨i, hd⟩ | hge
  · simp [hb] at hr
  · rw [fetchEngine_of_decodePhase hd]
    exact countsDown_micro hd hs
  · obtain ⟨hle, -⟩ := hs
    omega

end

theorem exec_micro_with_host {s t : State} {i : Instr} (hd : decodePhase s.phase = .ok i)
    (h : exec i s = .next t) (l : List HostInput) (rs : List (ReadSel × Word)) :
    exec i { s with inputs := l, reads := rs } = .next { t with inputs := l, reads := rs } := by
  rcases decodePhase_ok hd with ⟨rfl, -⟩ | ⟨rfl, -⟩ | ⟨rfl, -⟩ | ⟨rfl, -⟩ | ⟨rfl, -⟩ | ⟨rfl, -⟩ | ⟨rfl, -⟩
  · obtain ⟨hnbuf, rfl⟩ := execPad_next.mp h
    exact execPad_next.mpr ⟨hnbuf, rfl⟩
  · exact Host.Outcome.next.inj h ▸ rfl
  · exact Host.Outcome.next.inj h ▸ rfl
  · obtain ⟨hidx, rfl⟩ := execSched_next.mp h
    exact execSched_next.mpr ⟨hidx, rfl⟩
  · exact Host.Outcome.next.inj h ▸ rfl
  · exact Host.Outcome.next.inj h ▸ rfl
  · exact Host.Outcome.next.inj h ▸ rfl

/-- The engine reads nothing of the host's side of the state, and writes nothing there (rules R85, R101). -/
theorem engine_with_host {s t : State} (h : perform s.fetchEngine = .next t) (l : List HostInput)
    (rs : List (ReadSel × Word)) :
    perform (State.fetchEngine { s with inputs := l, reads := rs }) =
      .next { t with inputs := l, reads := rs } := by
  rcases fetchEngine_cases s with hr | ⟨i, hd⟩ | hge
  · rw [fetchEngine_of_ready hr] at h
    obtain rfl := Host.Outcome.next.inj h
    rw [fetchEngine_of_ready (s := { s with inputs := l, reads := rs }) hr, perform_hold]
  · rw [fetchEngine_of_decodePhase hd] at h
    rw [fetchEngine_of_decodePhase (s := { s with inputs := l, reads := rs }) hd]
    exact exec_micro_with_host hd h l rs
  · rw [fetchEngine_of_unreachable hge] at h
    cases h

/-- So it keeps what the host presents and has read. -/
theorem engine_keeps_host {s t : State} (h : perform s.fetchEngine = .next t) :
    t.inputs = s.inputs ∧ t.reads = s.reads := by
  have hsame := Host.Outcome.next.inj (h.symm.trans (engine_with_host h s.inputs s.reads))
  rw [hsame]
  exact ⟨rfl, rfl⟩

/-- While BUSY and left alone by the host, the engine counts down to READY. -/
theorem run_countsDown {s : State} (hq : s.Quiet) (hs : s.EngineOk) {n : Nat} (hn : n ≤ s.stepsToReady) :
    ∃ t, run n s = .next t ∧ t.inputs = s.inputs ∧ t.EngineOk ∧ s.stepsToReady = t.stepsToReady + n ∧
      (s.Finalising → t.Finalising) := by
  induction n with
  | zero => exact ⟨s, rfl, rfl, hs, rfl, id⟩
  | succ n ih =>
    obtain ⟨t, hrun, hi, hok, hcount, hfin⟩ := ih (by omega)
    have hb : t.ready = false := by
      rw [← Bool.not_eq_true, ← stepsToReady_eq_zero_iff hok]
      omega
    obtain ⟨u, hu, huok, hucount, hufin⟩ := countsDown_engine hb hok
    refine ⟨u, ?_, (engine_keeps_host hu).1.trans hi, huok, by omega, hufin ∘ hfin⟩
    rw [run_add hrun 1, run_one, step, fetch_of_quiet (quiet_of_inputs hq hi) hb, hu]

theorem run_busy_before_ready {s : State} (hq : s.Quiet) (hs : s.EngineOk) {n : Nat} (hn : n < s.stepsToReady) :
    ∃ t, run n s = .next t ∧ t.ready = false := by
  obtain ⟨t, hrun, -, hok, hcount, -⟩ := run_countsDown hq hs hn.le
  refine ⟨t, hrun, ?_⟩
  rw [← Bool.not_eq_true, ← stepsToReady_eq_zero_iff hok]
  omega

/-- At READY, finalising has come to DONE: IDLE leaves no finalisation open. -/
theorem done_of_finalising {s : State} (hr : s.ready = true) (hs : s.EngineOk) (hf : s.Finalising) :
    s.phase = Phase.done.code := by
  obtain ⟨-, -, -, hidle⟩ := hs
  rcases (ready_iff s).mp hr with hp | hp
  · exact hf.resolve_left (by simp [hidle hp])
  · exact hp

theorem run_to_ready {s : State} (hq : s.Quiet) (hs : s.EngineOk) :
    ∃ t, run s.stepsToReady s = .next t ∧ t.ready = true ∧
      (s.Finalising → t.phase = Phase.done.code) := by
  obtain ⟨t, hrun, -, hok, hcount, hfin⟩ := run_countsDown hq hs (Nat.le_refl _)
  have hr := (stepsToReady_eq_zero_iff hok).mp (by omega)
  exact ⟨t, hrun, hr, fun hf => done_of_finalising hr hok (hfin hf)⟩

/-! ## Polling loops (rule R62) -/

theorem status_done (s : State) : s.status.getLsbD 1 = decide (s.phase = Phase.done.code) := by
  obtain ⟨-, hdone, -⟩ := statusFields s
  exact hdone

theorem readMap_status (s : State) : s.readMap 8 = s.status := rfl

/-- WAIT ends where the engine is READY. -/
theorem holds_notBusy (s : State) : PollCond.holds .notBusy s.status = s.ready := by
  rw [PollCond.holds, status_busy, State.busy, Bool.not_not]

/-- WAITDONE ends in DONE. -/
theorem holds_done (s : State) :
    PollCond.holds .done s.status = true ↔ s.phase = Phase.done.code := by
  rw [PollCond.holds, status_done, decide_eq_true_iff]

theorem not_holds_of_busy {s : State} (c : PollCond) (hb : s.ready = false) : c.holds s.status = false := by
  cases c with
  | notBusy => rw [holds_notBusy, hb]
  | done =>
    rw [← Bool.not_eq_true, holds_done]
    exact fun hp => by simp [State.ready, hp] at hb

/-- The read that ends a loop. -/
theorem step_poll_ends {s : State} {c : PollCond} {rest : List HostInput} (hi : s.inputs = .poll c :: rest)
    (hc : c.holds s.status = true) :
    step s = .next { s with inputs := rest, reads := s.reads ++ [(8, s.status)] } := by
  have hrest : s.pollRest c rest = rest := if_pos hc
  rw [step_of_poll hi, hrest]
  rfl

/-- A read that does not end a loop, and the engine's step after it. -/
theorem run_poll_round {s t : State} {c : PollCond} {rest : List HostInput}
    (hi : s.inputs = .poll c :: rest) (hc : c.holds s.status = false)
    (ht : perform s.fetchEngine = .next t) :
    run 2 s = .next { t with inputs := .poll c :: rest, reads := s.reads ++ [(8, s.status)] } := by
  have hrest : s.pollRest c rest = .idle :: .poll c :: rest := by
    rw [State.pollRest, readMap_status, hc, if_neg Bool.false_ne_true]
  have hread : step s =
      .next { s with inputs := .idle :: .poll c :: rest, reads := s.reads ++ [(8, s.status)] } := by
    rw [step_of_poll hi, hrest]
    rfl
  rw [run_succ hread, run_one, step_of_idle rfl]
  exact engine_with_host ht _ _

/-- A polling loop during a run of the engine that is BUSY until its end: a read before each of the run's
steps, and one more. -/
theorem run_poll {c : PollCond} {rest : List HostInput} {n : Nat} {s t : State} (hi : s.inputs = [])
    (hrun : run n s = .next t) (hbusy : ∀ k < n, ∃ u, run k s = .next u ∧ u.ready = false)
    (hc : c.holds t.status = true) (rs : List (ReadSel × Word)) :
    ∃ polls, run (2 * n + 1) { s with inputs := .poll c :: rest, reads := rs } =
      .next { t with inputs := rest, reads := rs ++ polls } := by
  induction n generalizing s rs with
  | zero =>
    obtain rfl := Host.Outcome.next.inj hrun
    exact ⟨_, step_poll_ends (s := { s with inputs := .poll c :: rest, reads := rs }) rfl hc⟩
  | succ n ih =>
    obtain ⟨u, hu, hb⟩ := hbusy 0 (Nat.succ_pos n)
    obtain rfl := Host.Outcome.next.inj hu
    cases hstep : step s with
    | fault f => rw [run, hstep] at hrun; cases hrun
    | refused r => rw [run, hstep] at hrun; cases hrun
    | next s₁ =>
      have hengine : perform s.fetchEngine = .next s₁ := step_of_nil hi ▸ hstep
      have hround := run_poll_round (s := { s with inputs := .poll c :: rest, reads := rs }) rfl
        (not_holds_of_busy c hb) (engine_with_host hengine _ _)
      obtain ⟨polls, hpolls⟩ := ih (s := s₁) ((engine_keeps_host hengine).1.trans hi)
        (run_succ hstep n ▸ hrun)
        (fun k hk => by
          obtain ⟨v, hv, hvb⟩ := hbusy (k + 1) (by omega)
          exact ⟨v, run_succ hstep k ▸ hv, hvb⟩)
        (rs ++ [(8, s.status)])
      refine ⟨(8, s.status) :: polls, ?_⟩
      rw [List.append_assoc] at hpolls
      rw [show 2 * (n + 1) + 1 = 2 + (2 * n + 1) by omega, run_add hround]
      exact hpolls

/-- A polling loop that the engine's coming to READY ends. -/
theorem run_poll_to_ready {s t : State} {c : PollCond} {rest : List HostInput}
    (hi : s.inputs = .poll c :: rest) (hs : s.EngineOk)
    (hrun : run s.stepsToReady { s with inputs := [] } = .next t) (hc : c.holds t.status = true) :
    ∃ polls, run (2 * s.stepsToReady + 1) s =
      .next { t with inputs := rest, reads := s.reads ++ polls } := by
  have hpoll := run_poll (rest := rest) rfl hrun
    (fun k hk => run_busy_before_ready (s := { s with inputs := [] }) (.inl rfl) hs hk) hc s.reads
  rwa [show { s with inputs := .poll c :: rest, reads := s.reads } = s from with_inputs_self hi] at hpoll

/-- Settles O54: the engine comes to READY within 232 steps, and to DONE if it finalises. -/
theorem pollingLoopsEnd : Obligations.PollingLoopsEnd := by
  intro s rest hinv
  have hs := engineOk_of_inv hinv
  have hle := stepsToReady_le hs
  obtain ⟨t, hrun, hr, hdone⟩ := run_to_ready (s := { s with inputs := [] }) (.inl rfl) hs
  refine ⟨fun hi => ?wait, fun hi hf => ?waitDone⟩
  case wait =>
    obtain ⟨polls, hpolls⟩ := run_poll_to_ready hi hs hrun ((holds_notBusy t).trans hr)
    exact ⟨_, _, by omega, hpolls, rfl, (ready_iff t).mp hr⟩
  case waitDone =>
    obtain ⟨polls, hpolls⟩ := run_poll_to_ready hi hs hrun ((holds_done t).mpr (hdone hf))
    exact ⟨_, _, by omega, hpolls, rfl, hdone hf⟩

end Sys2Proof.Machine
end

section
/-! One block, LOADW to FOLD, as a whole: the schedule of the buffer's block, and its compression into the
Hash State (rules R74, R83, R87). -/

namespace Sys2Proof.Machine

/-! ## The schedule (rule R74) -/

/-- The derived words come from the first 16, so what stood in `W` from word 16 on shows in none. -/
theorem schedSteps_congr {w w' : Vector Word 64} (h : ∀ (j : Nat) (hj : j < 64), j < 16 → w[j] = w'[j])
    {n : Nat} (hn : n ≤ 48) (j : Nat) (hj : j < 64) (hlt : j < 16 + n) :
    (schedSteps w n)[j] = (schedSteps w' n)[j] := by
  induction n generalizing j with
  | zero => exact h j hj hlt
  | succ n ih =>
    have hi : 16 + n < 64 := by omega
    have hword := schedWord_congr hi (by omega) (ih (by omega))
    simp only [schedSteps, dif_pos hi, Vector.getElem_set, hword]
    split
    · rfl
    · exact ih (by omega) j hj (by omega)

theorem scheduleUpTo_eq_schedSteps (b : Vector Byte 64) (n : Nat) :
    scheduleUpTo b n = schedSteps (loadWords (Vector.replicate 64 0) b) n := by
  induction n with
  | zero => rfl
  | succ n ih => rw [scheduleUpTo, schedSteps, ih]

/-- LOADW and 48 SCHED steps derive the block's schedule, whatever `W` held. -/
theorem schedSteps_loadWords (w : Vector Word 64) (b : Vector Byte 64) :
    schedSteps (loadWords w b) 48 = scheduleOf b := by
  rw [scheduleOf, scheduleUpTo_eq_schedSteps]
  exact Vector.ext fun j hj =>
    schedSteps_congr (fun j _ hlow => loadWords_low_congr _ _ _ hlow) (Nat.le_refl 48) j hj hj

/-! ## The steps of a block (rule R87) -/

/-- The state after FOLD, from any state of the block in WINIT (rules R82, R83). -/
def State.afterCompression (s : State) : State :=
  { s with
    h := compress s.h s.w
    v := roundsUpTo s.h s.w 64
    idx := 0
    nbuf := 0
    phase :=
      if s.fin && s.lenpend then Phase.pad2.code
      else if s.fin then Phase.done.code
      else Phase.idle.code
    fin := s.fin && s.lenpend }

section
variable {s : State}

/-- LOADW and SCHED leave the block's schedule in `W` (rule R74). -/
theorem run_schedule (hq : s.Quiet) (hp : s.phase = Phase.loadw.code) :
    run 49 s = .next { s with w := scheduleOf s.buf, idx := 0, phase := Phase.winit.code } := by
  have hload : run 1 s = .next { s with
      w := loadWords s.w s.buf, idx := 16, phase := Phase.sched.code } := by
    rw [run_one]
    exact step_micro (i := .loadw) hq rfl (by rw [hp]; rfl) rfl
  rw [show 49 = 1 + 48 from rfl, run_add hload, run_sched s hq _ 48 (Nat.le_refl 48),
    schedSteps_loadWords]
  rfl

/-- WINIT, the 64 rounds and FOLD compress the schedule in `W` into the Hash State (rule R83). -/
theorem run_compression (hq : s.Quiet) (hp : s.phase = Phase.winit.code) :
    run 66 s = .next s.afterCompression := by
  have hinit : run 1 s = .next { s with v := s.h, idx := 0, phase := Phase.round.code } := by
    rw [run_one]
    exact step_micro (i := .winit) hq rfl (by rw [hp]; rfl) rfl
  have hrounds : run (1 + 64) s = .next { s with
      v := roundsUpTo s.h s.w 64, idx := 0, phase := Phase.fold.code } := by
    rw [run_add hinit, run_round s hq 64 (Nat.le_refl 64)]
    rfl
  rw [show 66 = 1 + 64 + 1 from rfl, run_add hrounds, run_one]
  exact step_micro (i := .fold) hq rfl rfl rfl

/-- A whole block (rule R87). -/
theorem run_block (hq : s.Quiet) (hp : s.phase = Phase.loadw.code) :
    run 115 s = .next (State.afterCompression { s with w := scheduleOf s.buf }) := by
  rw [show 115 = 49 + 66 from rfl, run_add (run_schedule hq hp)]
  exact run_compression (quiet_of_inputs hq rfl) rfl

end

end Sys2Proof.Machine
end

section
/-! The bytes of the padded stream, block by block, and that PAD and PAD2 write its last blocks (rules R63 to
R68). -/

namespace Sys2Proof.Machine

/-! ## The bytes of the padded stream (rule R63) -/

section
variable (m : List Byte)

theorem getD_padMessage_message {j : Nat} (hj : j < m.length) :
    (padMessage m).getD j 0 = m[j] := by
  rw [padMessage, List.getD_append _ _ _ _ hj, List.getD_eq_getElem _ _ hj]

/-- From the message's end on, the padding (rule R63). -/
theorem getD_padMessage_add (j : Nat) :
    (padMessage m).getD (m.length + j) 0 =
      (0x80 :: (List.replicate (padZeros m.length) 0x00 ++
        be64bytes (BitVec.ofNat 64 (8 * m.length)))).getD j 0 := by
  rw [padMessage, List.getD_append_right _ _ _ _ (Nat.le_add_right _ _), Nat.add_sub_cancel_left]

theorem getD_padMessage_marker : (padMessage m).getD m.length 0 = 0x80 := getD_padMessage_add m 0

theorem getD_padMessage_zero {j : Nat} (hj : m.length < j) (hj' : j < m.length + 1 + padZeros m.length) :
    (padMessage m).getD j 0 = 0x00 := by
  obtain ⟨k, rfl⟩ : ∃ k, j = m.length + (k + 1) := ⟨j - m.length - 1, by omega⟩
  rw [getD_padMessage_add, List.getD_cons_succ, List.getD_append _ _ _ _ (by simp; omega)]
  simp

theorem getD_padMessage_length {k : Nat} (hk : k < 8) :
    (padMessage m).getD (m.length + 1 + padZeros m.length + k) 0 =
      be64byte (BitVec.ofNat 64 (8 * m.length)) k := by
  rw [show m.length + 1 + padZeros m.length + k = m.length + (padZeros m.length + k + 1) by omega,
    getD_padMessage_add, List.getD_cons_succ, List.getD_append_right _ _ _ _ (by simp)]
  match k, hk with
  | 0, _ | 1, _ | 2, _ | 3, _ | 4, _ | 5, _ | 6, _ | 7, _ => simp [be64bytes]

end

/-! ## The machine's last blocks (rules R65 to R68) -/

theorem getElem_blockAt (p : List Byte) (q : Nat) {k : Nat} (hk : k < 64) :
    (blockAt p q)[k] = p.getD (64 * q + k) 0 := by
  simp [blockAt]

/-- The length field is eight times the bytes counted (rule R67). -/
theorem lenField_ofNat (len : Nat) :
    lenField (BitVec.ofNat 61 len) = BitVec.ofNat 64 (8 * len) := by
  apply BitVec.eq_of_toNat_eq
  simp only [lenField, BitVec.toNat_shiftLeft, BitVec.toNat_setWidth, BitVec.toNat_ofNat,
    Nat.shiftLeft_eq]
  omega

/-- `buf` holds the bytes of block `i / 64` of a stream that come before byte `i` of the stream (rule R18). -/
def HoldsUpTo (p : List Byte) (i : Nat) (buf : Vector Byte 64) : Prop :=
  ∀ (k : Nat) (hk : k < 64), k < i % 64 → buf[k] = p.getD (64 * (i / 64) + k) 0

section
variable {m : List Byte} {buf : Vector Byte 64}

/-- PAD completes the block that holds the message's end (rules R65, R68). -/
theorem padBuf_eq_blockAt (hbuf : HoldsUpTo (padMessage m) m.length buf) :
    padBuf buf (m.length % 64) (BitVec.ofNat 61 m.length) = blockAt (padMessage m) (m.length / 64) := by
  apply Vector.ext
  intro k hk
  have hend : m.length = 64 * (m.length / 64) + m.length % 64 := by omega
  rw [getElem_padBuf, getElem_blockAt _ _ hk, lenField_ofNat]
  by_cases hlow : k < m.length % 64
  · rw [if_pos hlow, hbuf k hk hlow]
  rw [if_neg hlow]
  by_cases hmark : k = m.length % 64
  · rw [if_pos hmark, hmark, ← hend, getD_padMessage_marker]
  rw [if_neg hmark]
  by_cases hfield : m.length % 64 ≤ 55 ∧ 56 ≤ k
  · have hplace : 64 * (m.length / 64) + k = m.length + 1 + padZeros m.length + (k - 56) := by
      unfold padZeros; omega
    rw [if_pos hfield, hplace, getD_padMessage_length m (by omega)]
  · rw [if_neg hfield, getD_padMessage_zero m (by omega) (by unfold padZeros; omega)]

/-- PAD2 is the block after it, where the length field found no room (rules R66, R68). -/
theorem padBuf2_eq_blockAt (hroom : 56 ≤ m.length % 64) :
    padBuf2 (BitVec.ofNat 61 m.length) = blockAt (padMessage m) (m.length / 64 + 1) := by
  apply Vector.ext
  intro k hk
  rw [getElem_padBuf2, getElem_blockAt _ _ hk, lenField_ofNat]
  by_cases hlow : k < 56
  · rw [if_pos hlow, getD_padMessage_zero m (by omega) (by unfold padZeros; omega)]
  · have hplace : 64 * (m.length / 64 + 1) + k = m.length + 1 + padZeros m.length + (k - 56) := by
      unfold padZeros; omega
    rw [if_neg hlow, hplace, getD_padMessage_length m (by omega)]

/-- The blocks of the padded stream: those the message fills, the last, and one more without room for the
length field (rule R64). -/
theorem nblocks_eq (len : Nat) : nblocks len = if len % 64 ≤ 55 then len / 64 + 1 else len / 64 + 2 := by
  unfold nblocks
  split <;> omega

end

end Sys2Proof.Machine
end

section
/-! A whole message: the bytes WRB writes are absorbed block by block, FINAL and the padding finish it, and the
Hash State is then the message's (rules R68, R88, R91). -/

namespace Sys2Proof.Machine

/-! ## Absorbing the message's bytes (rules R88, R98) -/

/-- The state `s` with a stream's first `i` bytes absorbed: its whole blocks in the Hash State, the others in
`buf`. The host's list is `l`. -/
def State.filling (s : State) (p : List Byte) (i : Nat) (v : Vector Word 8) (w : Vector Word 64)
    (buf : Vector Byte 64) (l : List HostInput) : State :=
  { s with
    h := hashStateAfter p (i / 64)
    v := v
    w := w
    buf := buf
    nbuf := BitVec.ofNat 7 (i % 64)
    mlen := BitVec.ofNat 61 i
    phase := Phase.idle.code
    idx := 0
    fin := false
    lenpend := false
    inputs := l }

theorem ofNat_succ (n i : Nat) : BitVec.ofNat n i + 1 = BitVec.ofNat n (i + 1) :=
  (BitVec.ofNat_add i 1).symm

/-- `NBUF` has room for the bytes of an unfinished block. -/
theorem toNat_ofNat_mod_64 (i : Nat) : (BitVec.ofNat 7 (i % 64)).toNat = i % 64 := by
  rw [BitVec.toNat_ofNat]
  omega

/-- The state `t` at the LOADW of block `q` of a stream, over the Hash State of the blocks before it (rules R68,
R88). -/
def State.loading (t : State) (p : List Byte) (q : Nat) : State :=
  { t with h := hashStateAfter p q, buf := blockAt p q, nbuf := 64, phase := Phase.loadw.code }

/-- The state `t` once block `q` of a stream is folded. -/
def State.folded (t : State) (p : List Byte) (q : Nat) : State :=
  State.afterCompression { t with
    h := hashStateAfter p q, w := scheduleOf (blockAt p q), buf := blockAt p q }

theorem run_loading {t : State} (hq : t.Quiet) (p : List Byte) (q : Nat) :
    run 115 (t.loading p q) = .next (t.folded p q) :=
  run_block (s := t.loading p q) (quiet_of_inputs hq rfl) rfl

/-- WRB below the limit, where the buffer has room (rule R98). -/
theorem execWrb_appends {s : State} {n : Nat} (d : Byte) (hp : s.phase = Phase.idle.code)
    (hmax : s.mlen ≠ maxMlen) (hn : n < 64) (hnbuf : s.nbuf.toNat = n) :
    exec (.wrb d) s = .next (s.appendByte d n hn) := by
  subst hnbuf
  rw [exec, execWrb, accept_of_ready ((ready_iff s).mpr (.inl hp)), if_neg (by simp [hp]), if_neg hmax,
    dif_pos hn]

theorem holdsUpTo_set {p : List Byte} {i : Nat} {buf : Vector Byte 64} (hbuf : HoldsUpTo p i buf)
    {k : Nat} (hk : k < 64) (hle : k ≤ i % 64) :
    (buf.set (i % 64) (p.getD i 0) (Nat.mod_lt i (by decide)))[k] = p.getD (64 * (i / 64) + k) 0 := by
  rw [Vector.getElem_set]
  split
  · next heq => rw [← heq, Nat.div_add_mod]
  · exact hbuf k hk (by omega)

section
variable {s : State} {p : List Byte} {i : Nat} {v : Vector Word 8} {w : Vector Word 64}
  {buf : Vector Byte 64} {l : List HostInput}

theorem step_filling_wrb (d : Byte) (hi : i < 2 ^ 61 - 1) :
    step (s.filling p i v w buf (.command (commandWord d 0x02) :: l)) =
      .next ((s.filling p i v w buf l).appendByte d (i % 64) (Nat.mod_lt i (by decide))) := by
  have hdec : decodeCommand (commandWord d 0x02) = .wrb d := by
    rw [decodeCommand_wrb (opField_commandWord d 0x02), dataField_commandWord]
  rw [step_of_command rfl rfl, hdec]
  refine execWrb_appends (s := s.filling p i v w buf l) d rfl ?_ _ ?_
  · rw [ne_eq, eq_maxMlen_iff, State.filling, BitVec.toNat_ofNat]
    omega
  · exact toNat_ofNat_mod_64 i

/-- A byte that leaves room in the buffer. -/
theorem run_filling_room (hi : i < 2 ^ 61 - 1) (hroom : (i + 1) % 64 ≠ 0) (hbuf : HoldsUpTo p i buf) :
    ∃ buf', HoldsUpTo p (i + 1) buf' ∧
      run 1 (s.filling p i v w buf (.command (commandWord (p.getD i 0) 0x02) :: l)) =
        .next (s.filling p (i + 1) v w buf' l) := by
  have hmod : (i + 1) % 64 = i % 64 + 1 := by omega
  have hdiv : (i + 1) / 64 = i / 64 := by omega
  refine ⟨buf.set (i % 64) (p.getD i 0) (Nat.mod_lt i (by decide)), fun k hk hlt => ?_, ?_⟩
  · rw [hdiv]
    exact holdsUpTo_set hbuf hk (by omega)
  · rw [run_one, step_filling_wrb _ hi]
    simp only [State.appendByte, State.filling, hdiv, hmod, if_neg (show i % 64 + 1 ≠ 64 by omega),
      ofNat_succ]

/-- The byte that fills the buffer: LOADW of the stream's next block comes after it (rules R88, R98). -/
theorem step_filling_full (hi : i < 2 ^ 61 - 1) (hfull : (i + 1) % 64 = 0) (hbuf : HoldsUpTo p i buf) :
    step (s.filling p i v w buf (.command (commandWord (p.getD i 0) 0x02) :: l)) =
      .next ((s.filling p (i + 1) v w buf l).loading p (i / 64)) := by
  have hlast : i % 64 = 63 := by omega
  have hblock : buf.set (i % 64) (p.getD i 0) (Nat.mod_lt i (by decide)) = blockAt p (i / 64) := by
    apply Vector.ext
    intro k hk
    rw [holdsUpTo_set hbuf hk (by omega), getElem_blockAt _ _ hk]
  have hnbuf : BitVec.ofNat 7 (i % 64) + 1 = 64 := by rw [hlast]; rfl
  rw [step_filling_wrb _ hi]
  simp only [State.appendByte, State.filling, State.loading, hblock, hnbuf, ofNat_succ,
    if_pos (show i % 64 + 1 = 64 by omega)]

/-- A block of the message's own bytes leaves the engine filling the next one (rule R82). -/
theorem folded_filling (hfull : (i + 1) % 64 = 0) :
    ∃ v' w', (s.filling p (i + 1) v w buf l).folded p (i / 64) =
      s.filling p (i + 1) v' w' (blockAt p (i / 64)) l := by
  have hdiv : (i + 1) / 64 = i / 64 + 1 := by omega
  refine ⟨roundsUpTo (hashStateAfter p (i / 64)) (scheduleOf (blockAt p (i / 64))) 64,
    scheduleOf (blockAt p (i / 64)), ?_⟩
  simp only [State.folded, State.afterCompression, State.filling, hfull, hdiv, hashStateAfter]
  rfl

/-- That byte and its block (rule R88). -/
theorem run_filling_full (hq : State.Quiet { s with inputs := l }) (hi : i < 2 ^ 61 - 1)
    (hfull : (i + 1) % 64 = 0) (hbuf : HoldsUpTo p i buf) :
    ∃ v' w' buf', HoldsUpTo p (i + 1) buf' ∧
      run 116 (s.filling p i v w buf (.command (commandWord (p.getD i 0) 0x02) :: l)) =
        .next (s.filling p (i + 1) v' w' buf' l) := by
  obtain ⟨v', w', hfold⟩ := folded_filling (s := s) (p := p) (v := v) (w := w) (buf := buf) (l := l) hfull
  refine ⟨v', w', blockAt p (i / 64), fun k _ hlt => absurd hlt (by omega), ?_⟩
  rw [run_succ (step_filling_full hi hfull hbuf) 115, run_loading, hfold]
  exact quiet_of_inputs hq rfl

/-- A byte, and the block it completes if it completes one. -/
theorem run_filling_byte (hq : State.Quiet { s with inputs := l }) (hi : i < 2 ^ 61 - 1)
    (hbuf : HoldsUpTo p i buf) :
    ∃ v' w' buf', HoldsUpTo p (i + 1) buf' ∧
      run (1 + 115 * ((i + 1) / 64 - i / 64))
        (s.filling p i v w buf (.command (commandWord (p.getD i 0) 0x02) :: l)) =
        .next (s.filling p (i + 1) v' w' buf' l) := by
  by_cases hfull : (i + 1) % 64 = 0
  · rw [show (i + 1) / 64 - i / 64 = 1 by omega]
    exact run_filling_full hq hi hfull hbuf
  · rw [show (i + 1) / 64 - i / 64 = 0 by omega]
    obtain ⟨buf', hbuf', hrun⟩ := run_filling_room hi hfull hbuf
    exact ⟨v, w, buf', hbuf', hrun⟩

/-- The commands of a message's bytes wait while the engine is BUSY (rule R52). -/
theorem quiet_wrsInputs (hq : State.Quiet { s with inputs := l }) (bytes : List Byte) :
    State.Quiet { s with inputs := wrsInputs bytes ++ l } := by
  cases bytes with
  | nil => exact hq
  | cons d ds => exact .inr ⟨_, _, rfl⟩

/-- The stream's next bytes, each with the block it completes (rules R88, R92). -/
theorem run_filling {bytes : List Byte} (hq : State.Quiet { s with inputs := l })
    (hlen : i + bytes.length < 2 ^ 61)
    (hp : ∀ (j : Nat) (hj : j < bytes.length), p.getD (i + j) 0 = bytes[j])
    (hbuf : HoldsUpTo p i buf) :
    ∃ v' w' buf', HoldsUpTo p (i + bytes.length) buf' ∧
      run (bytes.length + 115 * ((i + bytes.length) / 64 - i / 64))
        (s.filling p i v w buf (wrsInputs bytes ++ l)) =
        .next (s.filling p (i + bytes.length) v' w' buf' l) := by
  induction bytes generalizing i v w buf with
  | nil => exact ⟨v, w, buf, hbuf, by simp [wrsInputs]⟩
  | cons d ds ih =>
    rw [List.length_cons] at hlen
    obtain rfl : p.getD i 0 = d := hp 0 (by simp)
    obtain ⟨v₁, w₁, buf₁, hbuf₁, hrun₁⟩ :=
      run_filling_byte (v := v) (w := w) (quiet_wrsInputs hq ds) (by omega) hbuf
    obtain ⟨v₂, w₂, buf₂, hbuf₂, hrun₂⟩ := ih (i := i + 1) (v := v₁) (w := w₁) (by omega)
      (fun j hj => by rw [Nat.add_right_comm]; exact hp (j + 1) (by simpa using hj)) hbuf₁
    have hcount : i + 1 + ds.length = i + (ds.length + 1) := by omega
    rw [hcount] at hbuf₂ hrun₂
    refine ⟨v₂, w₂, buf₂, hbuf₂, ?_⟩
    rw [List.length_cons, ← hrun₂, ← run_add hrun₁]
    congr 1
    omega

end

/-! ## Finishing the message (rules R65, R66, R82, R99) -/

/-- The state `t` while the message's end is processed. -/
def State.finishing (t : State) (lenpend : Bool) : State := { t with fin := true, lenpend := lenpend }

/-- The state after FINAL (rule R99). -/
def State.padding (t : State) : State := { t with fin := true, phase := Phase.pad.code }

/-- The state `s` in DONE with the hash of a message. -/
def State.hashed (s : State) (m : List Byte) (v : Vector Word 8) (w : Vector Word 64)
    (buf : Vector Byte 64) (l : List HostInput) : State :=
  { s.filling (padMessage m) m.length v w buf l with
    h := messageHash m, nbuf := 0, phase := Phase.done.code }

theorem step_filling_final (s : State) (p : List Byte) (i : Nat) (v : Vector Word 8) (w : Vector Word 64)
    (buf : Vector Byte 64) (l : List HostInput) :
    step (s.filling p i v w buf (.command 0x0003 :: l)) = .next (s.filling p i v w buf l).padding := by
  rw [step_of_command rfl rfl, decodeCommand_final (by decide)]
  rfl

section
variable {s : State} {m : List Byte} {v : Vector Word 8} {w : Vector Word 64} {buf : Vector Byte 64}
  {l : List HostInput}

/-- PAD leads to the LOADW of the block that holds the message's end (rules R65, R68). -/
theorem step_padding (hq : State.Quiet { s with inputs := l })
    (hbuf : HoldsUpTo (padMessage m) m.length buf) :
    step (s.filling (padMessage m) m.length v w buf l).padding =
      .next (((s.filling (padMessage m) m.length v w buf l).finishing
        (decide (56 ≤ m.length % 64))).loading (padMessage m) (m.length / 64)) := by
  refine step_micro (i := .pad) hq rfl rfl (execPad_next.mpr ⟨?_, ?_⟩)
  · simp only [State.padding, State.filling, toNat_ofNat_mod_64]
    omega
  · simp only [State.padding, State.filling, State.finishing, State.loading, toNat_ofNat_mod_64,
      padBuf_eq_blockAt hbuf]

/-- PAD2 leads to the LOADW of the block after it (rules R66, R68). -/
theorem step_folded_pad2 (hq : State.Quiet { s with inputs := l }) (hroom : 56 ≤ m.length % 64) :
    ∃ v' w' buf',
      step (((s.filling (padMessage m) m.length v w buf l).finishing true).folded (padMessage m)
        (m.length / 64)) =
      .next (((s.filling (padMessage m) m.length v' w' buf' l).finishing false).loading (padMessage m)
        (m.length / 64 + 1)) := by
  refine ⟨roundsUpTo (hashStateAfter (padMessage m) (m.length / 64))
    (scheduleOf (blockAt (padMessage m) (m.length / 64))) 64,
    scheduleOf (blockAt (padMessage m) (m.length / 64)), buf, ?_⟩
  refine step_micro (i := .pad2) hq rfl rfl ?_
  simp only [exec, execPad2, State.folded, State.afterCompression, State.filling, State.finishing,
    State.loading, padBuf2_eq_blockAt hroom, hashStateAfter, Bool.and_self]

/-- The last block's FOLD ends in DONE with the message's hash (rules R82, R91). -/
theorem folded_last {q : Nat} (hq : nblocks m.length = q + 1) :
    ∃ v' w' buf', ((s.filling (padMessage m) m.length v w buf l).finishing false).folded (padMessage m) q =
      s.hashed m v' w' buf' l := by
  refine ⟨roundsUpTo (hashStateAfter (padMessage m) q) (scheduleOf (blockAt (padMessage m) q)) 64,
    scheduleOf (blockAt (padMessage m) q), blockAt (padMessage m) q, ?_⟩
  simp only [State.folded, State.afterCompression, State.filling, State.finishing, State.hashed,
    messageHash, hq, hashStateAfter]
  rfl

/-- From PAD to DONE: one block, or two with PAD2 between (rules R91, R92). -/
theorem run_padding (hq : State.Quiet { s with inputs := l })
    (hbuf : HoldsUpTo (padMessage m) m.length buf) :
    ∃ v' w' buf',
      run (116 + if 56 ≤ m.length % 64 then 116 else 0)
        (s.filling (padMessage m) m.length v w buf l).padding = .next (s.hashed m v' w' buf' l) := by
  have hblocks := nblocks_eq m.length
  have hpad := step_padding (v := v) (w := w) hq hbuf
  by_cases hroom : 56 ≤ m.length % 64
  · rw [decide_eq_true hroom] at hpad
    rw [if_neg (by omega)] at hblocks
    obtain ⟨v₁, w₁, buf₁, hpad2⟩ := step_folded_pad2 (v := v) (w := w) (buf := buf) hq hroom
    obtain ⟨v₂, w₂, buf₂, hlast⟩ :=
      folded_last (s := s) (v := v₁) (w := w₁) (buf := buf₁) (l := l) hblocks
    refine ⟨v₂, w₂, buf₂, ?_⟩
    rw [if_pos hroom, show 116 + 116 = 115 + (115 + 1) + 1 from rfl, run_succ hpad,
      run_add (run_loading _ _ _), run_succ hpad2, run_loading, hlast]
    · exact quiet_of_inputs hq rfl
    · exact quiet_of_inputs hq rfl
  · rw [decide_eq_false hroom] at hpad
    rw [if_pos (by omega)] at hblocks
    obtain ⟨v₁, w₁, buf₁, hlast⟩ :=
      folded_last (s := s) (v := v) (w := w) (buf := buf) (l := l) hblocks
    refine ⟨v₁, w₁, buf₁, ?_⟩
    rw [if_neg hroom, Nat.add_zero, run_succ hpad 115, run_loading, hlast]
    exact quiet_of_inputs hq rfl

end

end Sys2Proof.Machine
end

section
/-! `HASH m`: INIT, the message, FINAL, WAITDONE and DIGEST (rules R62, R90, R91). -/

namespace Sys2Proof.Machine

/-- An accepted INIT starts to fill any stream's first block (rule R97). -/
theorem step_init {s : State} {l : List HostInput} (hr : s.ready = true)
    (hi : s.inputs = .command 0x0001 :: l) (p : List Byte) :
    step s = .next (s.startHash.filling p 0 s.v s.w s.buf l) := by
  rw [step_of_command hr hi, decodeCommand_init (by decide), execInit_of_ready (s := { s with inputs := l }) hr]
  rfl

/-- The bytes of the message are the first of its padded stream, and fill it from its start (rules R88, R92). -/
theorem run_message {s : State} {m : List Byte} (v : Vector Word 8) (w : Vector Word 64)
    (buf : Vector Byte 64) {l : List HostInput} (hq : State.Quiet { s with inputs := l })
    (hlen : m.length < 2 ^ 61) :
    ∃ v' w' buf', HoldsUpTo (padMessage m) m.length buf' ∧
      run (m.length + 115 * (m.length / 64)) (s.filling (padMessage m) 0 v w buf (wrsInputs m ++ l)) =
        .next (s.filling (padMessage m) m.length v' w' buf' l) := by
  have hrun := run_filling (v := v) (w := w) (buf := buf) (p := padMessage m) (bytes := m) (i := 0) hq
    (by omega) (fun j hj => by rw [Nat.zero_add, getD_padMessage_message m hj])
    (fun k _ hlt => absurd hlt (Nat.not_lt_zero k))
  rwa [Nat.zero_add, Nat.zero_div, Nat.sub_zero] at hrun

/-- WAITDONE after FINAL ends in DONE with the message's hash (rules R62, R91). -/
theorem run_padding_poll {s : State} {m : List Byte} {v : Vector Word 8} {w : Vector Word 64}
    {buf : Vector Byte 64} {l : List HostInput} (hbuf : HoldsUpTo (padMessage m) m.length buf) :
    ∃ n v' w' buf' polls,
      run n (s.filling (padMessage m) m.length v w buf (.poll .done :: l)).padding =
        .next { s.hashed m v' w' buf' l with reads := s.reads ++ polls } := by
  have hok : (s.filling (padMessage m) m.length v w buf (.poll .done :: l)).padding.EngineOk :=
    engineOk_pad rfl (by simp only [State.padding, State.filling, toNat_ofNat_mod_64]; omega)
  have hsteps : (s.filling (padMessage m) m.length v w buf (.poll .done :: l)).padding.stepsToReady =
      116 + if 56 ≤ m.length % 64 then 116 else 0 := by
    rw [stepsToReady_pad rfl]
    simp only [State.padding, State.filling, toNat_ofNat_mod_64, true_and]
  obtain ⟨v', w', buf', hrun⟩ := run_padding (s := s) (v := v) (w := w) (l := []) (.inl rfl) hbuf
  obtain ⟨polls, hpolls⟩ := run_poll_to_ready rfl hok (hsteps ▸ hrun) ((holds_done _).mpr rfl)
  exact ⟨_, v', w', buf', polls, hpolls⟩

/-- Reads in a row return the read map's words (rule R101). -/
theorem run_reads {s : State} {sels : List ReadSel} {l : List HostInput}
    (hi : s.inputs = sels.map .read ++ l) :
    run sels.length s =
      .next { s with inputs := l, reads := s.reads ++ sels.map fun sel => (sel, s.readMap sel) } := by
  induction sels generalizing s with
  | nil =>
    rw [List.map_nil, List.append_nil]
    exact congrArg _ (with_inputs_self hi).symm
  | cons sel sels ih =>
    have hread : step s = .next (State.hostRead { s with inputs := sels.map .read ++ l } sel) :=
      step_of_read hi
    rw [List.length_cons, run_succ hread, ih rfl, List.map_cons, List.append_cons]
    rfl

/-- DIGEST reads the Hash State, word by word (rule R90). -/
theorem readMap_hash (s : State) (j : Fin 8) : s.readMap (BitVec.ofNat 4 j.val) = s.h[j] := by
  have hsel : (BitVec.ofNat 4 j.val).toNat = j.val := by
    rw [BitVec.toNat_ofNat]
    omega
  rw [State.readMap, dif_pos (by omega)]
  simp only [hsel, Fin.getElem_fin]

theorem digestInputs_eq :
    digestInputs = ((List.finRange 8).map fun j => BitVec.ofNat 4 j.val).map .read ++ [] := by
  decide

theorem run_digest {s : State} (hi : s.inputs = digestInputs) :
    run 8 s = .next { s with
      inputs := [], reads := s.reads ++ (List.finRange 8).map fun j => (BitVec.ofNat 4 j.val, s.h[j]) } := by
  have hrun := run_reads (hi.trans digestInputs_eq)
  simpa only [List.length_map, List.length_finRange, List.map_map, Function.comp_def, readMap_hash]
    using hrun

/-- Settles O55: INIT, the message, FINAL, the polling loop and the eight reads, run after run. -/
theorem hashMacroReadsTheDigest : Obligations.HashMacroReadsTheDigest := by
  intro m s hlen hp hi
  have hinit := step_init ((ready_iff s).mpr hp) hi (padMessage m)
  obtain ⟨v₁, w₁, buf₁, hbuf, hmessage⟩ := run_message (s := s.startHash) (m := m) s.v s.w s.buf
    (l := .command 0x0003 :: .poll .done :: digestInputs) (.inr ⟨_, _, rfl⟩) hlen
  have hfinal := step_filling_final s.startHash (padMessage m) m.length v₁ w₁ buf₁
    (.poll .done :: digestInputs)
  obtain ⟨n, v₂, w₂, buf₂, polls, hpoll⟩ :=
    run_padding_poll (s := s.startHash) (v := v₁) (w := w₁) (l := digestInputs) hbuf
  have hdigest := run_digest
    (s := { s.startHash.hashed m v₂ w₂ buf₂ digestInputs with reads := s.reads ++ polls }) rfl
  have hrun := (run_succ hinit _).trans <| (run_add hmessage _).trans <| (run_succ hfinal _).trans <|
    (run_add hpoll _).trans hdigest
  exact ⟨_, _, polls, hrun, rfl, rfl, rfl⟩

end Sys2Proof.Machine
end

section
/-! The padding micro-operations: the bytes PAD and PAD2 write, and what they leave unchanged (rules R65 to
R67). -/

namespace Sys2Proof.Machine

/-! ## The length field, byte by byte (rules R10, R67) -/

/-- Byte `k` of a 64-bit value as a number. -/
theorem be64byte_eq_ofNat (x : BitVec 64) (k : Nat) :
    be64byte x k = BitVec.ofNat 8 (x.toNat / 2 ^ (56 - 8 * k)) := by
  rw [be64byte, BitVec.extractLsb', Nat.shiftRight_eq_div_pow]

/-- The length field does not wrap: it is eight times `MLEN`. -/
theorem toNat_lenField (mlen : BitVec 61) : (lenField mlen).toNat = 8 * mlen.toNat := by
  have hfield := lenField_ofNat mlen.toNat
  rw [BitVec.ofNat_toNat, BitVec.setWidth_eq] at hfield
  rw [hfield, BitVec.toNat_ofNat]
  omega

/-- The length field's byte at an index `k` of the block. -/
theorem be64byte_lenField (mlen : BitVec 61) {k : Nat} (hk : 56 ≤ k) :
    be64byte (lenField mlen) (k - 56) = BitVec.ofNat 8 (8 * mlen.toNat / 2 ^ (8 * (63 - k))) := by
  rw [be64byte_eq_ofNat, toNat_lenField, show 56 - 8 * (k - 56) = 8 * (63 - k) by omega]

/-! ## PAD and PAD2 (rules R65, R66) -/

/-- PAD leaves the bytes the buffer holds. -/
theorem getElem_padBuf_of_lt (buf : Vector Byte 64) (mlen : BitVec 61) {n k : Nat} (hk : k < 64)
    (hlow : k < n) : (padBuf buf n mlen)[k] = buf[k] := by
  rw [getElem_padBuf, if_pos hlow]

/-- After the marker PAD writes zeros, but for the length field where it has room. -/
theorem getElem_padBuf_of_gt (buf : Vector Byte 64) (mlen : BitVec 61) {n k : Nat} (hk : k < 64)
    (hhigh : n < k) :
    (padBuf buf n mlen)[k] =
      if n ≤ 55 ∧ 56 ≤ k then be64byte (lenField mlen) (k - 56) else 0x00 := by
  rw [getElem_padBuf, if_neg (by omega), if_neg (by omega)]

/-- Settles O21: the block PAD writes, in each range of bytes. -/
theorem padWritesTheLastBlock : Obligations.PadWritesTheLastBlock := by
  intro s hn
  refine ⟨padBuf s.buf s.nbuf.toNat s.mlen, execPad_next.mpr ⟨by omega, rfl⟩,
    fun k hk => ⟨?_, ?_, ?_, ?_, ?_⟩⟩
  · exact getElem_padBuf_of_lt s.buf s.mlen hk
  · intro hmark
    rw [getElem_padBuf, if_neg (by omega), if_pos hmark]
  · intro _ hhigh hle
    rw [getElem_padBuf_of_gt _ _ hk hhigh, if_neg (by omega)]
  · intro hroom hfield
    rw [getElem_padBuf_of_gt _ _ hk (by omega), if_pos ⟨hroom, hfield⟩, be64byte_lenField _ hfield]
  · intro hfull hhigh
    rw [getElem_padBuf_of_gt _ _ hk hhigh, if_neg (by omega)]

/-- Settles O22: the block PAD2 writes is 56 zero bytes and the length field. -/
theorem pad2WritesTheLengthBlock : Obligations.Pad2WritesTheLengthBlock := by
  intro s
  refine ⟨padBuf2 s.mlen, rfl, fun k hk => ⟨fun hlow => ?_, fun hfield => ?_⟩⟩
  · rw [getElem_padBuf2, if_pos (by omega)]
  · rw [getElem_padBuf2, if_neg (by omega), be64byte_lenField _ hfield]

/-- Settles O34: both write BUF, NBUF, LENPEND and PHASE, and PAD's block begins with the bytes held. -/
theorem paddingFrame : Obligations.PaddingFrame := by
  rintro s t i (rfl | rfl) h
  · obtain ⟨-, rfl⟩ := execPad_next.mp h
    exact ⟨rfl, rfl, rfl, rfl, rfl, rfl, rfl, rfl, rfl, rfl, rfl, rfl,
      fun _ k hk => getElem_padBuf_of_lt s.buf s.mlen hk⟩
  · injection h with h
    subst h
    exact ⟨rfl, rfl, rfl, rfl, rfl, rfl, rfl, rfl, rfl, rfl, rfl, rfl, nofun⟩

end Sys2Proof.Machine
end

section
/-! The length of the padded stream and its two ends (rules R63, R64). -/

namespace Sys2Proof.Machine

theorem length_padMessage (m : List Byte) : (padMessage m).length = m.length + 9 + padZeros m.length := by
  simp only [padMessage, be64bytes, List.length_append, List.length_cons, List.length_replicate,
    List.length_nil]
  omega

/-- The zeros fill the last block (rule R64). -/
theorem length_add_padZeros (len : Nat) : len + 9 + padZeros len = 64 * nblocks len := by
  unfold padZeros nblocks
  omega

/-- The stream ends with the 64-bit length field (rule R63). -/
theorem drop_padMessage (m : List Byte) :
    (padMessage m).drop ((padMessage m).length - 8) = be64bytes (BitVec.ofNat 64 (8 * m.length)) := by
  have hsplit : padMessage m = (m ++ 0x80 :: List.replicate (padZeros m.length) 0x00) ++
      be64bytes (BitVec.ofNat 64 (8 * m.length)) := by
    simp only [padMessage, List.append_assoc, List.cons_append]
  rw [hsplit]
  exact List.drop_left' (by simp [be64bytes]; omega)

/-- Settles O23: the stream's length is counted in bytes and in blocks; the rest is arithmetic on the two. -/
theorem paddedStreamProperties : Obligations.PaddedStreamProperties := by
  intro m _
  have hzeros : padZeros m.length ≤ 63 := Nat.le_of_lt_succ (Nat.mod_lt _ (by decide))
  have hlength := length_padMessage m
  have hwhole := hlength.trans (length_add_padZeros m.length)
  have hblocks := nblocks_eq m.length
  exact ⟨hlength, by omega, by omega, by omega, hwhole, by unfold nblocks; omega, List.take_left,
    drop_padMessage m, fun hroom => hblocks.trans (if_pos hroom),
    fun hfull => hblocks.trans (if_neg (by omega))⟩

end Sys2Proof.Machine
end

section
/-! The exact step of each block's LOADW while a message is hashed (rules R68, R87, R88). -/

namespace Sys2Proof.Machine

section
variable {s : State} {m : List Byte} {v : Vector Word 8} {w : Vector Word 64} {buf : Vector Byte 64}
  {l : List HostInput} {q : Nat}

/-- The byte that fills block `q` is followed by the block's LOADW (rule R88). -/
theorem run_filling_to_block {p bytes : List Byte} (hlen : bytes.length = 64 * q + 63)
    (hmax : bytes.length < 2 ^ 61 - 1) (hp : ∀ (j : Nat) (hj : j < bytes.length), p.getD j 0 = bytes[j]) :
    ∃ t : State, run (64 * (q + 1) + 115 * q) (s.filling p 0 v w buf
      (wrsInputs bytes ++ .command (commandWord (p.getD bytes.length 0) 0x02) :: l)) =
        .next (t.loading p q) := by
  obtain ⟨v', w', buf', hbuf, hrun⟩ := run_filling (s := s) (v := v) (w := w) (buf := buf) (p := p) (i := 0)
    (bytes := bytes) (l := .command (commandWord (p.getD bytes.length 0) 0x02) :: l) (.inr ⟨_, _, rfl⟩)
    (by omega) (fun j hj => by rw [Nat.zero_add, hp j hj]) (fun k _ hlt => absurd hlt (Nat.not_lt_zero k))
  rw [Nat.zero_add] at hbuf hrun
  have hfull := step_filling_full (s := s) (v := v') (w := w') (l := l) hmax (by omega) hbuf
  rw [← run_one, show bytes.length / 64 = q by omega] at hfull
  have hcount : 64 * (q + 1) + 115 * q = bytes.length + 115 * (bytes.length / 64 - 0 / 64) + 1 := by omega
  rw [hcount, run_add hrun]
  exact ⟨_, hfull⟩

/-- The host's list at the byte before which `n` bytes of the message are written. -/
theorem wrsInputs_split {n : Nat} (hn : n < m.length) :
    wrsInputs m ++ l = wrsInputs (m.take n) ++
      .command (commandWord ((padMessage m).getD n 0) 0x02) :: (wrsInputs (m.drop (n + 1)) ++ l) := by
  rw [getD_padMessage_message m hn]
  conv_lhs => rw [← List.take_append_drop n m, List.drop_eq_getElem_cons hn]
  simp only [wrsInputs, List.map_append, List.map_cons, List.append_assoc, List.cons_append]

/-- A block of the message's own bytes is loaded as soon as its last byte is written (rule R88). -/
theorem run_to_message_block (hlen : m.length < 2 ^ 61) (hblock : q < m.length / 64) :
    ∃ t : State, run (64 * (q + 1) + 115 * q) (s.filling (padMessage m) 0 v w buf (wrsInputs m ++ l)) =
      .next (t.loading (padMessage m) q) := by
  have hbytes : (m.take (64 * q + 63)).length = 64 * q + 63 := by rw [List.length_take]; omega
  rw [wrsInputs_split (show 64 * q + 63 < m.length by omega)]
  have hrun := run_filling_to_block (s := s) (v := v) (w := w) (buf := buf) (p := padMessage m)
    (l := wrsInputs (m.drop (64 * q + 64)) ++ l) hbytes (by omega)
    (fun j hj => by rw [List.getElem_take, getD_padMessage_message])
  rwa [hbytes] at hrun

/-- The padding's blocks: the one PAD completes, and the one PAD2 adds (rules R65, R66, R87). -/
theorem run_to_padding_block (hq : State.Quiet { s with inputs := l })
    (hbuf : HoldsUpTo (padMessage m) m.length buf) (hlow : m.length / 64 ≤ q)
    (hblock : q < nblocks m.length) :
    ∃ t : State, run (1 + 116 * (q - m.length / 64)) (s.filling (padMessage m) m.length v w buf l).padding =
      .next (t.loading (padMessage m) q) := by
  have hblocks := nblocks_eq m.length
  have hpad := step_padding (v := v) (w := w) hq hbuf
  rw [← run_one] at hpad
  obtain rfl | hextra := Nat.eq_or_lt_of_le hlow
  · rw [Nat.sub_self]
    exact ⟨_, hpad⟩
  · have hroom : 56 ≤ m.length % 64 := by split at hblocks <;> omega
    obtain rfl : q = m.length / 64 + 1 := by split at hblocks <;> omega
    rw [decide_eq_true hroom] at hpad
    obtain ⟨v', w', buf', hpad2⟩ := step_folded_pad2 (s := s) (v := v) (w := w) (buf := buf) hq hroom
    have hfold := run_loading (t := (s.filling (padMessage m) m.length v w buf l).finishing true)
      (quiet_of_inputs hq rfl) (padMessage m) (m.length / 64)
    rw [← run_one] at hpad2
    rw [Nat.add_sub_cancel_left]
    exact ⟨_, (run_add hpad 116).trans ((run_add hfold 1).trans hpad2)⟩

end

/-- The engine is in the LOADW of block `q` at the step `loadwStep` names. -/
theorem run_loadwStep {m : List Byte} {s : State} (hlen : m.length < 2 ^ 61) (hr : s.ready = true)
    (hi : s.inputs = messageInputs m) {q : Nat} (hblock : q < nblocks m.length) :
    ∃ t : State, run (loadwStep m.length q) s = .next (t.loading (padMessage m) q) := by
  have hinit := step_init hr hi (padMessage m)
  rw [← run_one] at hinit
  unfold loadwStep
  by_cases hlow : q < m.length / 64
  · rw [if_pos hlow, Nat.add_assoc, run_add hinit]
    exact run_to_message_block hlen hlow
  · obtain ⟨v, w, buf, hbuf, hmessage⟩ := run_message (s := s.startHash) s.v s.w s.buf
      (l := [.command 0x0003]) (.inr ⟨_, _, rfl⟩) hlen
    have hfinal := step_filling_final s.startHash (padMessage m) m.length v w buf []
    rw [← run_one] at hfinal
    obtain ⟨t, hrun⟩ := run_to_padding_block (s := s.startHash) (v := v) (w := w) (l := []) (.inl rfl)
      hbuf (by omega) hblock
    have hcount : m.length + 3 + 115 * q + (q - m.length / 64) =
        1 + (m.length + 115 * (m.length / 64) + (1 + (1 + 116 * (q - m.length / 64)))) := by omega
    rw [if_neg hlow, hcount, run_add hinit, run_add hmessage, run_add hfinal]
    exact ⟨t, hrun⟩

/-- Settles O51: at that step BUF is the block and H the Hash State of the blocks before it. -/
theorem loadedBlocksAreThePaddedStream : Obligations.LoadedBlocksAreThePaddedStream := by
  intro m s hlen hp hi q hblock
  obtain ⟨t, hrun⟩ := run_loadwStep hlen ((ready_iff s).mpr hp) hi hblock
  exact ⟨_, hrun, rfl, rfl, rfl⟩

end Sys2Proof.Machine
end

section
/-! The schedule expander: the words LOADW and SCHED write, what they leave unchanged, and a whole block's
schedule and compression (rules R72 to R75, R82, R83). -/

namespace Sys2Proof.Machine

/-! ## LOADW and SCHED (rules R72, R73) -/

/-- Settles O24: words 0 to 15 are the block's, big-endian, and the others are those before. -/
theorem loadwLoadsTheBlock : Obligations.LoadwLoadsTheBlock := fun s =>
  ⟨loadWords s.w s.buf, rfl, getElem_loadWords_low s.w s.buf, getElem_loadWords_high s.w s.buf⟩

/-- IDX has six bits, so that its increment is modulo 64 (rule R21). -/
theorem idx_add_one (i : BitVec 6) : i + 1 = BitVec.ofNat 6 ((i.toNat + 1) % 64) :=
  BitVec.eq_of_toNat_eq (by rw [BitVec.toNat_ofNat, Nat.mod_mod]; rfl)

theorem idx_eq_last_iff (i : BitVec 6) : i = 63 ↔ i.toNat = 63 := BitVec.toNat_inj.symm

/-- Settles O25: the last index is where IDX, six bits wide, is 63. -/
theorem schedDerivesOneWord : Obligations.SchedDerivesOneWord := by
  intro s hp hidx
  refine execSched_next.mpr ⟨hidx, ?_⟩
  simp only [idx_add_one, idx_eq_last_iff, hp]
  rfl

/-- Settles O35: both write W, IDX and PHASE, LOADW no word from 16 on and SCHED one word. -/
theorem scheduleFrame : Obligations.ScheduleFrame := by
  rintro s t i (rfl | rfl) h
  · obtain rfl := Host.Outcome.next.inj h
    exact ⟨rfl, rfl, rfl, rfl, rfl, rfl, rfl, rfl, rfl, rfl, rfl, rfl, rfl,
      fun _ => getElem_loadWords_high s.w s.buf, nofun⟩
  · obtain ⟨-, rfl⟩ := execSched_next.mp h
    exact ⟨rfl, rfl, rfl, rfl, rfl, rfl, rfl, rfl, rfl, rfl, rfl, rfl, rfl, nofun,
      fun _ _ hj hne => Vector.getElem_set_ne s.idx.isLt hj hne.symm⟩

/-- Settles O26: the next values of W, IDX and PHASE are functions of the four registers, and so is whether
SCHED stops. -/
theorem scheduleReadsOnlyItsOwnRegisters : Obligations.ScheduleReadsOnlyItsOwnRegisters := by
  rintro s t s' i (rfl | rfl) hbuf hw hidx hphase h
  · obtain rfl := Host.Outcome.next.inj h
    exact ⟨_, rfl, hbuf, congrArg₂ loadWords hw hbuf, rfl, rfl⟩
  · obtain ⟨hlow, rfl⟩ := execSched_next.mp h
    refine ⟨_, execSched_next.mpr ⟨hidx ▸ hlow, rfl⟩, hbuf, ?w, ?idx, ?phase⟩
    case w => simp only [hw, hidx]
    case idx => simp only [hidx]
    case phase => simp only [hidx, hphase]

/-! ## The equations of a schedule (rule R74) -/

section
variable {w : Vector Word 64} {n : Nat}

/-- A later word is not read. -/
theorem schedWord_set_later (x : Word) {i k : Nat} (hi : i < 64) (hpos : 16 ≤ i) (hk : k < 64) (hle : i ≤ k) :
    schedWord (w.set k x hk) i hi = schedWord w i hi :=
  schedWord_congr hi hpos fun _ hj hlt => Vector.getElem_set_ne hk hj (by omega)

/-- SCHED writes no word below 16. -/
theorem getElem_schedSteps_low {j : Nat} (hj : j < 64) (hlow : j < 16) : (schedSteps w n)[j] = w[j] := by
  induction n with
  | zero => rfl
  | succ n ih =>
    rw [← ih]
    simp only [schedSteps]
    split
    · next hi => exact Vector.getElem_set_ne hi hj (by omega)
    · rfl

/-- Every word derived so far satisfies the recurrence in the `W` of now: the words written after it are
none of those it was derived from. -/
theorem getElem_schedSteps_derived (hn : n ≤ 48) {i : Nat} (hi : i < 64) (hpos : 16 ≤ i) (hlt : i < 16 + n) :
    (schedSteps w n)[i] = schedWord (schedSteps w n) i hi := by
  induction n with
  | zero => omega
  | succ n ih =>
    have hnext : 16 + n < 64 := by omega
    rw [schedSteps, dif_pos hnext, schedWord_set_later _ hi hpos hnext (by omega)]
    obtain rfl | hne := eq_or_ne i (16 + n)
    · exact Vector.getElem_set_self hi
    · rw [Vector.getElem_set_ne hnext hi hne.symm]
      exact ih (by omega) (by omega)

end

theorem isSchedule_scheduleOf (b : Vector Byte 64) : IsSchedule b (scheduleOf b) := by
  rw [scheduleOf, scheduleUpTo_eq_schedSteps]
  refine ⟨fun j hj => ?block, fun i hi hpos => ?derived⟩
  case block => rw [getElem_schedSteps_low (by omega) hj, getElem_loadWords_low _ _ _ hj]
  case derived => exact getElem_schedSteps_derived (Nat.le_refl 48) hi hpos hi

/-- Settles O27: the 49 steps leave the schedule of the block, which satisfies the equations. -/
theorem scheduleOfABlock : Obligations.ScheduleOfABlock := fun s hq hp =>
  ⟨_, run_schedule hq hp, rfl, isSchedule_scheduleOf s.buf, rfl⟩

/-! ## A whole block (rules R82, R83, R87) -/

/-- FOLD's three ways out. -/
theorem afterCompression_exits (s : State) :
    (s.fin = false → s.afterCompression.phase = Phase.idle.code ∧ s.afterCompression.fin = false) ∧
    (s.fin = true → s.lenpend = false →
      s.afterCompression.phase = Phase.done.code ∧ s.afterCompression.fin = false) ∧
    (s.fin = true → s.lenpend = true →
      s.afterCompression.phase = Phase.pad2.code ∧ s.afterCompression.fin = true) := by
  refine ⟨fun hfin => ?_, fun hfin hlenpend => ?_, fun hfin hlenpend => ?_⟩
  · simp [State.afterCompression, hfin]
  · simp [State.afterCompression, hfin, hlenpend]
  · simp [State.afterCompression, hfin, hlenpend]

/-- Settles O49: the state after the block's 115 steps, field by field. -/
theorem blockFoldsIntoTheHashState : Obligations.BlockFoldsIntoTheHashState := fun s hq hp =>
  ⟨_, run_block hq hp, rfl, rfl, rfl, rfl, rfl, rfl, rfl, rfl, rfl, rfl, rfl,
    afterCompression_exits { s with w := scheduleOf s.buf }⟩

end Sys2Proof.Machine
end

section
/-! The compression-round datapath: the next states of WINIT, ROUND and FOLD, what they leave unchanged, and
their 66 steps as the compression function (rules R80 to R83). -/

namespace Sys2Proof.Machine

/-! ## The compression function (rule R83) -/

/-- Settles O32: WINIT, the induction over the 64 rounds, and FOLD are `run_compression`. -/
theorem compressionOfABlock : Obligations.CompressionOfABlock := fun _ hq hp =>
  ⟨_, run_compression hq hp, rfl⟩

/-! ## Frames -/

/-- Settles O36: each of the three answers one next state, which is an update of the registers it writes. -/
theorem compressionFrame : Obligations.CompressionFrame := by
  rintro s t i (rfl | rfl | rfl) h
  all_goals
    obtain rfl := Host.Outcome.next.inj h
    refine ⟨rfl, rfl, rfl, rfl, rfl, rfl, rfl, rfl, rfl, rfl, ?_⟩
  case inl => exact ⟨fun _ => ⟨rfl, rfl, rfl⟩, nofun⟩
  case inr.inl => exact ⟨fun _ => ⟨rfl, rfl, rfl⟩, nofun⟩
  case inr.inr => exact ⟨fun hne => absurd rfl hne, fun _ => ⟨rfl, rfl⟩⟩

/-! ## WINIT, ROUND and FOLD (rules R80, R81, R82) -/

/-- Settles O28: WINIT has one case. -/
theorem winitCopiesTheHashState : Obligations.WinitCopiesTheHashState := fun _ => rfl

/-- Settles O29: the two sums are T1 and T2 of the working variables before the round, and the last round is
where IDX, six bits wide, is 63. -/
theorem roundUpdatesTheWorkingVariables : Obligations.RoundUpdatesTheWorkingVariables := by
  intro s hp
  refine ⟨_, _, rfl, rfl, ?_⟩
  simp only [exec, execRound, idx_add_one, idx_eq_last_iff, hp]
  rfl

/-- Settles O30: FIN and LENPEND choose among FOLD's three ways out. -/
theorem foldFeedsForward : Obligations.FoldFeedsForward := by
  intro s
  refine ⟨foldH s.h s.v, getElem_foldH s.h s.v, ?pad2, ?done, ?idle⟩
  case pad2 =>
    intro hfin hlenpend
    simp [exec, execFold, hfin, hlenpend]
  case done =>
    intro hfin hlenpend
    simp [exec, execFold, hfin, hlenpend]
  case idle =>
    intro hfin
    simp [exec, execFold, hfin]

end Sys2Proof.Machine
end

section
/-! The engine's step by PHASE, and the phases it goes through: rule R86's transitions, the order of a block's
115 steps and the BUSY intervals (rules R85 to R87, R92, R94). -/

namespace Sys2Proof.Machine

/-! ## The step PHASE selects (rules R85, R94) -/

section
variable {s t : State}

theorem step_of_phase {p : Phase} {i : Instr} (hq : s.Quiet) (hd : decodePhase p.code = .ok i)
    (hp : s.phase = p.code) : step s = exec i s :=
  step_of_decodePhase hq (hp ▸ hd)

theorem step_of_ready_nil (hr : s.ready = true) (hi : s.inputs = []) : step s = .next s := by
  rw [step_of_nil hi, fetchEngine_of_ready hr, perform_hold]

theorem step_of_ready_idle {rest : List HostInput} (hr : s.ready = true) (hi : s.inputs = .idle :: rest) :
    step s = .next { s with inputs := rest } := by
  rw [step_of_idle hi, fetchEngine_of_ready (s := { s with inputs := rest }) hr, perform_hold]

theorem run_of_ready_nil (hr : s.ready = true) (hi : s.inputs = []) (n : Nat) : run n s = .next s := by
  induction n with
  | zero => rfl
  | succ n ih => rw [run_succ (step_of_ready_nil hr hi), ih]

end

/-- Settles O6: one lemma for the codes of the micro-operations, one for READY and one for the codes without a
name. -/
theorem engineStepIsSelectedByPhase : Obligations.EngineStepIsSelectedByPhase := by
  intro s hq
  obtain ⟨hstop, -⟩ := unreachableStatesFault
  exact ⟨step_of_phase hq rfl, step_of_phase hq rfl, step_of_phase hq rfl, step_of_phase hq rfl,
    step_of_phase hq rfl, step_of_phase hq rfl, step_of_phase hq rfl,
    fun hp => step_of_ready_nil ((ready_iff s).mpr hp), fun hge => hstop s hge hq⟩

/-- Settles O8: of the things a step can do, only a reset, a command and a micro-operation change a register,
and READY selects no micro-operation. -/
theorem readyEngineHoldsItsState : Obligations.ReadyEngineHoldsItsState := by
  intro s hp
  have hr := (ready_iff s).mpr hp
  refine ⟨run_of_ready_nil hr, fun rest => step_of_ready_idle hr, fun t h => ?_⟩
  rcases step_next h with ⟨rest, hi, -⟩ | ⟨w, rest, hi, -⟩ | ⟨sel, rest, rfl⟩ | ⟨rest, -, rfl⟩ |
    ⟨i, rest, hd, -⟩
  · exact .inl ⟨rest, hi⟩
  · exact .inr (.inl ⟨w, rest, hi⟩)
  · exact .inr (.inr ⟨_, _, rfl⟩)
  · exact .inr (.inr ⟨_, _, rfl⟩)
  · simp [not_ready_of_decodePhase hd] at hr

/-! ## The transitions (rule R86) -/

section
variable {s t : State}

/-- WRB leaves IDLE exactly where it stores the 64th byte (rules R98, R105). -/
theorem phase_execWrb {d : Byte} (hp : s.phase = Phase.idle.code) (h : exec (.wrb d) s = .next t) :
    t.phase = if s.mlen.toNat < 2 ^ 61 - 1 ∧ s.nbuf.toNat = 63 then Phase.loadw.code
      else Phase.idle.code := by
  rcases execWrb_next h with ⟨hr, -⟩ | ⟨hdone, -⟩ | ⟨-, hmax, rfl⟩ | ⟨-, hmax, hn, rfl⟩
  · simp [State.ready, hp] at hr
  · simp [hp] at hdone
  · rw [eq_maxMlen_iff] at hmax
    rw [State.raise_phase, hp, if_neg (by omega)]
  · rw [ne_eq, eq_maxMlen_iff] at hmax
    have hlt : s.mlen.toNat < 2 ^ 61 - 1 := by omega
    simp only [State.appendByte_phase, hp, hlt, true_and, Nat.reduceEqDiff]

theorem phase_execFinal (hp : s.phase = Phase.idle.code) (h : exec .final s = .next t) :
    t.phase = Phase.pad.code := by
  rcases execFinal_next h with ⟨hr, -⟩ | ⟨hdone, -⟩ | ⟨-, rfl⟩
  · simp [State.ready, hp] at hr
  · simp [hp] at hdone
  · rfl

/-- WRB and FINAL in DONE are sequence errors (rules R98, R99, R104). -/
theorem exec_raises_seq {i : Instr} (hp : s.phase = Phase.done.code) (hi : (∃ d, i = .wrb d) ∨ i = .final)
    (h : exec i s = .next t) : t = s.raise .seq := by
  have hr : s.ready = true := (ready_iff s).mpr (.inr hp)
  obtain ⟨d, rfl⟩ | rfl := hi
  · rw [exec, execWrb, accept_of_ready hr, if_pos hp] at h
    exact (Host.Outcome.next.inj h).symm
  · rw [exec, execFinal, accept_of_ready hr, if_pos hp] at h
    exact (Host.Outcome.next.inj h).symm

end

/-- What a command that the step accepts makes of PHASE, by its opcode (rule R86). -/
theorem phase_of_command {s t : State} {w : CmdWord} {rest : List HostInput}
    (hi : s.inputs = .command w :: rest) (h : step s = .next t) :
    (s.phase = Phase.idle.code → opField w = 0x02 →
      t.phase = if s.mlen.toNat < 2 ^ 61 - 1 ∧ s.nbuf.toNat = 63 then Phase.loadw.code
        else Phase.idle.code) ∧
    (s.phase = Phase.idle.code → opField w = 0x03 → t.phase = Phase.pad.code) ∧
    (s.ready = true → opField w = 0x01 → t.phase = Phase.idle.code) ∧
    (s.phase = Phase.done.code → opField w = 0x02 ∨ opField w = 0x03 →
      t = State.raise { s with inputs := rest } .seq) ∧
    (s.ready = true → opField w = 0x00 ∨ 4 ≤ (opField w).toNat → t.phase = s.phase) := by
  have hexec (hr : s.ready = true) : exec (decodeCommand w) { s with inputs := rest } = .next t :=
    (step_of_command hr hi).symm.trans h
  refine ⟨fun hp hw => ?wrb, fun hp hw => ?final, fun hr hw => ?init, fun hp hw => ?seq, fun hr hw => ?keep⟩
  case wrb =>
    have hwrb := hexec ((ready_iff s).mpr (.inl hp))
    rw [decodeCommand_wrb hw] at hwrb
    exact phase_execWrb (s := { s with inputs := rest }) hp hwrb
  case final =>
    have hfinal := hexec ((ready_iff s).mpr (.inl hp))
    rw [decodeCommand_final hw] at hfinal
    exact phase_execFinal (s := { s with inputs := rest }) hp hfinal
  case init =>
    have hinit := hexec hr
    rw [decodeCommand_init hw, execInit_of_ready (s := { s with inputs := rest }) hr] at hinit
    exact Host.Outcome.next.inj hinit ▸ rfl
  case seq =>
    refine exec_raises_seq (s := { s with inputs := rest }) hp ?_ (hexec ((ready_iff s).mpr (.inr hp)))
    exact hw.imp (fun hw => ⟨_, decodeCommand_wrb hw⟩) decodeCommand_final
  case keep =>
    have hkeep := hexec hr
    rcases hw with hw | hw
    · rw [decodeCommand_nop hw] at hkeep
      rw [execNop_next hkeep]
    · rw [decodeCommand_illegal hw, exec, execIllegal,
        accept_of_ready (s := { s with inputs := rest }) hr] at hkeep
      exact Host.Outcome.next.inj hkeep ▸ rfl

/-! ### What SCHED, ROUND and FOLD make of PHASE -/

section
variable {s t : State}

theorem phase_execSched (hp : s.phase = Phase.sched.code) (h : exec .sched s = .next t) :
    t.phase = (if s.idx = 63 then Phase.winit.code else Phase.sched.code) ∧ t.idx = s.idx + 1 := by
  obtain ⟨-, rfl⟩ := execSched_next.mp h
  exact ⟨by simp only [hp], rfl⟩

theorem phase_execRound (hp : s.phase = Phase.round.code) (h : exec .round s = .next t) :
    t.phase = (if s.idx = 63 then Phase.fold.code else Phase.round.code) ∧ t.idx = s.idx + 1 := by
  obtain rfl := Host.Outcome.next.inj h
  exact ⟨by simp only [hp], rfl⟩

theorem phase_execFold (h : exec .fold s = .next t) :
    t.phase = if s.fin && s.lenpend then Phase.pad2.code
      else if s.fin then Phase.done.code else Phase.idle.code :=
  Host.Outcome.next.inj h ▸ rfl

end

/-- Settles O47: the rows of the commands, of the micro-operations and of reset. -/
theorem phaseTransitions : Obligations.PhaseTransitions := by
  refine ⟨fun s t w rest _ hi h => ?commands, fun s t _ hq h => ?micro, fun s t rest hi h => ?reset⟩
  case commands =>
    obtain ⟨hwrb, hfinal, hinit, hseq, hkeep⟩ := phase_of_command hi h
    refine ⟨fun hp hw hlt hn => ?_, fun hp hw hroom => ?_, hfinal, fun hp => hinit ((ready_iff s).mpr hp),
      fun hp hw => ?_, fun hp => hkeep ((ready_iff s).mpr hp)⟩
    · rw [hwrb hp hw, if_pos ⟨hlt, hn⟩]
    · rw [hwrb hp hw, if_neg (by omega)]
    · rw [hseq hp hw]
      exact ⟨hp, rfl⟩
  case micro =>
    have hexec {p : Phase} (i : Instr) (hd : decodePhase p.code = .ok i) (hp : s.phase = p.code) :
        exec i s = .next t := (step_of_phase hq hd hp).symm.trans h
    have hnext (hlt : s.idx.toNat < 63) : s.idx ≠ 63 ∧ (s.idx + 1).toNat = s.idx.toNat + 1 := by
      constructor <;> bv_omega
    refine ⟨?pads, fun hp => ?loadw, fun hp hlt => ?sched, fun hp hlast => ?schedLast, fun hp => ?winit,
      fun hp hlt => ?round, fun hp hlast => ?roundLast, fun hp hfin => ?idle, fun hp hfin hlenpend => ?pad2,
      fun hp hfin hlenpend => ?done⟩
    case pads =>
      rintro (hp | hp)
      · obtain ⟨-, rfl⟩ := execPad_next.mp (hexec .pad rfl hp)
        rfl
      · exact Host.Outcome.next.inj (hexec .pad2 rfl hp) ▸ rfl
    case loadw => exact Host.Outcome.next.inj (hexec .loadw rfl hp) ▸ ⟨rfl, rfl⟩
    case winit => exact Host.Outcome.next.inj (hexec .winit rfl hp) ▸ ⟨rfl, rfl⟩
    case sched =>
      obtain ⟨hphase, hidx⟩ := phase_execSched hp (hexec .sched rfl hp)
      obtain ⟨hne, hsucc⟩ := hnext hlt
      exact ⟨hphase.trans (if_neg hne), by rw [hidx, hsucc]⟩
    case schedLast =>
      obtain ⟨hphase, -⟩ := phase_execSched hp (hexec .sched rfl hp)
      exact hphase.trans (if_pos ((idx_eq_last_iff _).mpr hlast))
    case round =>
      obtain ⟨hphase, hidx⟩ := phase_execRound hp (hexec .round rfl hp)
      obtain ⟨hne, hsucc⟩ := hnext hlt
      exact ⟨hphase.trans (if_neg hne), by rw [hidx, hsucc]⟩
    case roundLast =>
      obtain ⟨hphase, -⟩ := phase_execRound hp (hexec .round rfl hp)
      exact hphase.trans (if_pos ((idx_eq_last_iff _).mpr hlast))
    case idle => simp [phase_execFold (hexec .fold rfl hp), hfin]
    case pad2 => simp [phase_execFold (hexec .fold rfl hp), hfin, hlenpend]
    case done => simp [phase_execFold (hexec .fold rfl hp), hfin, hlenpend]
  case reset =>
    rw [step_of_reset hi] at h
    exact Host.Outcome.next.inj h ▸ rfl

/-! ## The order of a block's steps (rule R87) -/

section
variable {s : State}

/-- LOADW and `n` ≤ 48 SCHED steps. -/
theorem run_loadw_sched (hq : s.Quiet) (hp : s.phase = Phase.loadw.code) {n : Nat} (hn : n ≤ 48) :
    run (1 + n) s = .next { s with
      w := schedSteps (loadWords s.w s.buf) n
      idx := BitVec.ofNat 6 (16 + n)
      phase := if n = 48 then Phase.winit.code else Phase.sched.code } := by
  have hload : run 1 s = .next { s with
      w := loadWords s.w s.buf, idx := 16, phase := Phase.sched.code } := by
    rw [run_one, step_of_phase hq rfl hp]
    rfl
  rw [run_add hload, run_sched s hq _ n hn]

/-- The schedule, WINIT and `n` ≤ 64 ROUND steps. -/
theorem run_schedule_round (hq : s.Quiet) (hp : s.phase = Phase.loadw.code) {n : Nat} (hn : n ≤ 64) :
    run (50 + n) s = .next { s with
      w := scheduleOf s.buf
      v := roundsUpTo s.h (scheduleOf s.buf) n
      idx := BitVec.ofNat 6 n
      phase := if n = 64 then Phase.fold.code else Phase.round.code } := by
  have hinit : run 50 s = .next { s with
      w := scheduleOf s.buf, v := s.h, idx := 0, phase := Phase.round.code } := by
    rw [show 50 = 49 + 1 from rfl, run_add (run_schedule hq hp), run_one]
    exact step_micro (i := .winit) hq rfl rfl rfl
  rw [run_add hinit]
  exact run_round { s with w := scheduleOf s.buf } (quiet_of_inputs hq rfl) n hn

end

/-- A step to the LOADW of a block that ends the message is PAD's or PAD2's: the block of a WRB does not end
it, and SCHED stays in its own phase or goes on to WINIT. -/
theorem pads_of_last_loadw {s t : State} (hs : s.Inv) (h : step s = .next t)
    (hne : s.phase ≠ Phase.loadw.code) (hp : t.phase = Phase.loadw.code) (hfin : t.fin = true) :
    s.phase = Phase.pad.code ∨ s.phase = Phase.pad2.code := by
  rcases step_next h with ⟨rest, -, rfl⟩ | ⟨w, rest, -, hr, h⟩ | ⟨sel, rest, rfl⟩ | ⟨rest, -, rfl⟩ |
    ⟨i, rest, hd, h⟩
  · cases hp
  · rcases exec_command_next (s := { s with inputs := rest }) hr h with ⟨-, rfl⟩ | ⟨-, rfl⟩ |
      ⟨-, ⟨-, rfl⟩ | ⟨-, -, rfl⟩ | ⟨hidle, -, hn, rfl⟩⟩ | ⟨-, ⟨-, rfl⟩ | ⟨-, rfl⟩⟩ | ⟨-, rfl⟩
    · exact absurd hp hne
    · cases hp
    · exact absurd hp hne
    · exact absurd hp hne
    · obtain ⟨-, -, -, hidleFin⟩ := engineOk_of_inv hs
      exact absurd hfin (by simp [hidleFin hidle])
    · exact absurd hp hne
    · cases hp
    · exact absurd hp hne
  · exact absurd hp hne
  · exact absurd hp hne
  · rcases decodePhase_ok hd with ⟨rfl, hpad⟩ | ⟨rfl, hpad2⟩ | ⟨rfl, hloadw⟩ | ⟨rfl, hsched⟩ | ⟨rfl, -⟩ |
      ⟨rfl, hround⟩ | ⟨rfl, -⟩
    · exact .inl hpad
    · exact .inr hpad2
    · exact absurd hloadw hne
    · obtain ⟨hphase, -⟩ := phase_execSched (s := { s with inputs := rest }) hsched h
      rw [hphase] at hp
      split at hp <;> cases hp
    · cases Host.Outcome.next.inj h ▸ hp
    · obtain ⟨hphase, -⟩ := phase_execRound (s := { s with inputs := rest }) hround h
      rw [hphase] at hp
      split at hp <;> cases hp
    · rw [phase_execFold h] at hp
      split at hp
      · cases hp
      · split at hp <;> cases hp

/-- Settles O48: the runs of the block's two loops, the block's end, and what leads to LOADW. -/
theorem blockStepOrder : Obligations.BlockStepOrder := by
  refine ⟨fun s hq hp => ⟨fun n hn => ?sched, ?winit, fun n hn => ?round, ?fold, ?exits⟩,
    fun s hq hp => ?pads, fun s t => pads_of_last_loadw⟩
  case sched =>
    refine ⟨_, run_loadw_sched hq hp hn.le, if_neg hn.ne, ?_⟩
    rw [BitVec.toNat_ofNat]
    omega
  case winit => exact ⟨_, run_schedule hq hp, rfl⟩
  case round =>
    refine ⟨_, run_schedule_round hq hp hn.le, if_neg hn.ne, ?_⟩
    rw [BitVec.toNat_ofNat]
    omega
  case fold => exact ⟨_, run_schedule_round hq hp (Nat.le_refl 64), rfl⟩
  case exits =>
    refine ⟨_, run_block hq hp, ?_⟩
    simp only [State.afterCompression]
    split
    · exact .inr (.inr rfl)
    · split
      · exact .inr (.inl rfl)
      · exact .inl rfl
  case pads =>
    rcases hp with ⟨hp, hnbuf⟩ | hp
    · exact ⟨_, (step_of_phase (i := .pad) hq rfl hp).trans (execPad_next.mpr ⟨by omega, rfl⟩), rfl⟩
    · exact ⟨_, step_of_phase (i := .pad2) hq rfl hp, rfl⟩

/-! ## The BUSY intervals (rule R92) -/

/-- The engine is BUSY for exactly the steps it counts down, and a finalisation is then in DONE. -/
theorem run_busy_steps {s : State} (hq : s.Quiet) (hs : s.EngineOk) {k : Nat} (hk : s.stepsToReady = k) :
    (∀ n : Nat, n < k → ∃ t, run n s = .next t ∧ t.busy = true) ∧
      ∃ t, run k s = .next t ∧ (s.Finalising → t.phase = Phase.done.code) := by
  subst hk
  refine ⟨fun n hn => ?_, ?_⟩
  · obtain ⟨t, hrun, hb⟩ := run_busy_before_ready hq hs hn
    exact ⟨t, hrun, by rw [State.busy, hb]; rfl⟩
  · obtain ⟨t, hrun, -, hdone⟩ := run_to_ready hq hs
    exact ⟨t, hrun, hdone⟩

/-- Settles O50: the steps left in LOADW and in PAD; a block of the message's own bytes ends in IDLE, and a
finalisation in DONE. -/
theorem busyIntervalsAreExact : Obligations.BusyIntervalsAreExact := by
  refine fun s hq => ⟨fun hp hfin => ?block, fun hp hfin hroom => ?one, fun hp hfin hfull hn => ?two⟩
  case block =>
    have hk : s.stepsToReady = 115 := by simp [stepsToReady_loadw hp, State.stepsOwed, hfin]
    obtain ⟨hbusy, -⟩ := run_busy_steps hq (engineOk_of_phase hp (by decide)) hk
    refine ⟨hbusy, _, run_block hq hp, ?_⟩
    simp [State.afterCompression, hfin]
  case one =>
    have hk : s.stepsToReady = 116 := by rw [stepsToReady_pad hp, if_neg (by omega)]
    obtain ⟨hbusy, t, hrun, hdone⟩ := run_busy_steps hq (engineOk_pad hp (by omega)) hk
    exact ⟨hbusy, t, hrun, hdone (.inl hfin)⟩
  case two =>
    have hk : s.stepsToReady = 232 := by rw [stepsToReady_pad hp, if_pos ⟨hfin, hfull⟩]
    obtain ⟨hbusy, t, hrun, hdone⟩ := run_busy_steps hq (engineOk_pad hp (by omega)) hk
    exact ⟨hbusy, t, hrun, hdone (.inl hfin)⟩

end Sys2Proof.Machine
end

section
/-! The whole protocol: INIT, the message and FINAL in the exact number of steps, and the same with the host's
reads and idle steps in between (rules R52, R91, R92). -/

namespace Sys2Proof.Machine

/-! ## The contract with its exact length (rules R91, R92) -/

/-- The message's bytes and FINAL, each presented as soon as the last is accepted: from an engine that starts to
fill the first block to DONE with the hash (rules R91, R92). -/
theorem run_message_to_hash {s : State} {m : List Byte} (v : Vector Word 8) (w : Vector Word 64)
    (buf : Vector Byte 64) (hlen : m.length < 2 ^ 61) :
    ∃ v' w' buf', run (m.length + 1 + engineSteps m.length)
        (s.filling (padMessage m) 0 v w buf (wrsInputs m ++ [.command 0x0003])) =
      .next (s.hashed m v' w' buf' []) := by
  obtain ⟨v₁, w₁, buf₁, hbuf, hmessage⟩ := run_message (s := s) v w buf (l := [.command 0x0003])
    (.inr ⟨_, _, rfl⟩) hlen
  have hfinal := step_filling_final s (padMessage m) m.length v₁ w₁ buf₁ []
  obtain ⟨v₂, w₂, buf₂, hpadding⟩ := run_padding (s := s) (v := v₁) (w := w₁) (l := []) (.inl rfl) hbuf
  have hcount : m.length + 1 + engineSteps m.length =
      m.length + 115 * (m.length / 64) + (116 + (if 56 ≤ m.length % 64 then 116 else 0) + 1) := by
    rw [engineSteps, nblocks_eq]
    split <;> split <;> omega
  refine ⟨v₂, w₂, buf₂, ?_⟩
  rw [hcount, run_add hmessage, run_succ hfinal, hpadding]

/-- DONE with the hash of `m`, as the host can tell it: no error flag, `MLEN` and the digest (rule R91). -/
def State.DoneWith (t : State) (m : List Byte) : Prop :=
  t.phase = Phase.done.code ∧ t.errOp = false ∧ t.errSeq = false ∧ t.errLen = false ∧
    t.mlen.toNat = m.length ∧ t.h = messageHash m ∧ digestBytes t.h = sha256 m

theorem doneWith_hashed {s : State} {m : List Byte} {v : Vector Word 8} {w : Vector Word 64}
    {buf : Vector Byte 64} {l : List HostInput} (hlen : m.length < 2 ^ 61) (hop : s.errOp = false)
    (hseq : s.errSeq = false) (herrLen : s.errLen = false) : (s.hashed m v w buf l).DoneWith m := by
  refine ⟨rfl, hop, hseq, herrLen, ?_, rfl, rfl⟩
  simp only [State.hashed, State.filling, BitVec.toNat_ofNat]
  omega

/-- From any READY state. -/
theorem run_messageInputs {s : State} {m : List Byte} (hlen : m.length < 2 ^ 61) (hr : s.ready = true)
    (hi : s.inputs = messageInputs m) :
    ∃ t, run (m.length + 2 + engineSteps m.length) s = .next t ∧ t.DoneWith m ∧ t.inputs = [] ∧
      t.faulted = s.faulted := by
  obtain ⟨v, w, buf, hrun⟩ := run_message_to_hash (s := s.startHash) s.v s.w s.buf hlen
  rw [← run_succ (step_init hr hi (padMessage m))] at hrun
  rw [show m.length + 2 + engineSteps m.length = m.length + 1 + engineSteps m.length + 1 by omega]
  exact ⟨_, hrun, doneWith_hashed hlen rfl rfl rfl, rfl, rfl⟩

/-- From reset, without the INIT: reset is where the first block starts to fill (rules R32, R119). -/
theorem run_message_from_reset {m : List Byte} (hlen : m.length < 2 ^ 61) :
    ∃ t, run (m.length + 1 + engineSteps m.length)
        { State.reset with inputs := wrsInputs m ++ [.command 0x0003] } = .next t ∧
      t.DoneWith m ∧ t.inputs = [] ∧ t.faulted = false := by
  obtain ⟨v, w, buf, hrun⟩ := run_message_to_hash (s := State.reset) State.reset.v State.reset.w
    State.reset.buf hlen
  exact ⟨_, hrun, doneWith_hashed hlen rfl rfl rfl, rfl, rfl⟩

/-- Settles O52: the two runs, from any READY state and from reset. -/
theorem hashContract : Obligations.HashContract := by
  refine ⟨fun m s hlen hp hi => ?ready, fun m hlen => ?reset⟩
  case ready =>
    obtain ⟨t, hrun, ⟨hp, hop, hseq, herrLen, hmlen, hh, hdigest⟩, hi, hfaulted⟩ :=
      run_messageInputs hlen ((ready_iff s).mpr hp) hi
    exact ⟨t, hrun, hp, hop, hseq, herrLen, hfaulted, hi, hmlen, hh, hdigest⟩
  case reset =>
    obtain ⟨t, hrun, ⟨hp, hop, hseq, herrLen, hmlen, hh, hdigest⟩, hi, hfaulted⟩ :=
      run_message_from_reset hlen
    exact ⟨t, hrun, hp, hop, hseq, herrLen, hfaulted, hi, hmlen, hh, hdigest⟩

/-! ## A command and the host's side of the state -/

section
variable {s t : State}

/-- Putting back the host's side. -/
theorem with_host_self {l : List HostInput} {rs : List (ReadSel × Word)} (hi : s.inputs = l)
    (hreads : s.reads = rs) : { s with inputs := l, reads := rs } = s := by
  subst hi hreads
  rfl

/-- A command reads nothing of the host's side of the state, and writes nothing there (rules R95 to R100). -/
theorem exec_command_with_host {c : CmdWord} (hr : s.ready = true)
    (h : exec (decodeCommand c) s = .next t) (l : List HostInput) (rs : List (ReadSel × Word)) :
    exec (decodeCommand c) { s with inputs := l, reads := rs } =
      .next { t with inputs := l, reads := rs } := by
  have haccept := accept_of_ready (s := { s with inputs := l, reads := rs }) hr
  rcases opField_cases c with e | e | e | e | e
  · rw [decodeCommand_nop e] at h ⊢
    rw [execNop_next h, exec, execNop, haccept]
  · rw [decodeCommand_init e] at h ⊢
    obtain rfl := Host.Outcome.next.inj ((execInit_of_ready hr).symm.trans h)
    exact haccept _
  · rw [decodeCommand_wrb e] at h ⊢
    rcases execWrb_next h with ⟨hb, -⟩ | ⟨hp, rfl⟩ | ⟨hp, hmax, rfl⟩ | ⟨hp, hmax, hn, rfl⟩
    · simp [hr] at hb
    · exact (haccept _).trans (if_pos hp)
    · exact (haccept _).trans ((if_neg (by simp [hp])).trans (if_pos hmax))
    · exact execWrb_appends (s := { s with inputs := l, reads := rs }) _ hp hmax hn rfl
  · rw [decodeCommand_final e] at h ⊢
    rcases execFinal_next h with ⟨hb, -⟩ | ⟨hp, rfl⟩ | ⟨hp, rfl⟩
    · simp [hr] at hb
    · exact (haccept _).trans (if_pos hp)
    · exact (haccept _).trans (if_neg (by simp [hp]))
  · rw [decodeCommand_illegal e] at h ⊢
    obtain rfl := Host.Outcome.next.inj ((accept_of_ready hr _).symm.trans h)
    exact haccept _

/-- So it keeps what the host presents and has read. -/
theorem exec_command_keeps_host {c : CmdWord} (hr : s.ready = true)
    (h : exec (decodeCommand c) s = .next t) : t.inputs = s.inputs ∧ t.reads = s.reads := by
  have hsame := Host.Outcome.next.inj (h.symm.trans (exec_command_with_host hr h s.inputs s.reads))
  rw [hsame]
  exact ⟨rfl, rfl⟩

end

/-! ## A host that presents nothing but the commands (rules R46, R52) -/

/-- `c` has the registers of `s` and a host that presents nothing but commands, which decode to those of the
host of `s`; that host reads and idles besides. -/
def State.Follows (s c : State) : Prop :=
  s.inputs.all HostInput.isCommandReadOrIdle = true ∧
    ∃ (ws : List CmdWord) (rs : List (ReadSel × Word)),
      ws.map decodeCommand = (commandsOf s.inputs).map decodeCommand ∧
      c = { s with inputs := ws.map .command, reads := rs }

theorem quiet_commands {s : State} {ws : List CmdWord} (h : s.inputs = ws.map .command) : s.Quiet := by
  cases ws with
  | nil => exact .inl h
  | cons w ws => exact .inr ⟨w, _, h⟩

section
variable {s c c' : State}

theorem follows_engine (hf : s.Follows c) (h : perform c.fetchEngine = .next c') :
    ∃ t, perform s.fetchEngine = .next t ∧ t.Follows c' := by
  obtain ⟨hall, ws, rs, hws, rfl⟩ := hf
  obtain ⟨hinputs, hreads⟩ := engine_keeps_host h
  exact ⟨_, engine_with_host h s.inputs s.reads, hall, ws, rs, hws, (with_host_self hinputs hreads).symm⟩

/-- Where `c` steps to `c'`, the step of `s` is that one too, or a read or an idle step of its own host, which
then has fewer of them left. -/
theorem follows_step (hf : s.Follows c) (h : step c = .next c') :
    ∃ t, step s = .next t ∧
      (t.Follows c' ∨ (t.Follows c ∧ t.inputs.length < s.inputs.length)) := by
  obtain ⟨hall, ws, rs, hws, hc⟩ := id hf
  have hr : c.ready = s.ready := hc ▸ rfl
  have hq : c.Quiet := quiet_commands (ws := ws) (hc ▸ rfl)
  match hi : s.inputs with
  | [] =>
    obtain rfl : ws = [] := by simpa [hi, commandsOf] using hws
    rw [step_of_nil (hc ▸ rfl)] at h
    obtain ⟨t, ht, hft⟩ := follows_engine hf h
    exact ⟨t, (step_of_nil hi).trans ht, .inl hft⟩
  | .idle :: rest =>
    have hskip : State.Follows { s with inputs := rest } c := by
      rw [hi] at hall hws
      exact ⟨hall, ws, rs, hws, hc⟩
    cases hb : s.ready with
    | true => exact ⟨_, step_of_ready_idle hb hi, .inr ⟨hskip, Nat.lt_succ_self _⟩⟩
    | false =>
      rw [step, fetch_of_quiet hq (hr.trans hb)] at h
      obtain ⟨t, ht, hft⟩ := follows_engine hskip h
      exact ⟨t, (step_of_idle hi).trans ht, .inl hft⟩
  | .read sel :: rest =>
    rw [hi] at hall hws
    exact ⟨_, step_of_read hi, .inr ⟨⟨hall, ws, rs, hws, hc⟩, Nat.lt_succ_self _⟩⟩
  | .command w :: rest =>
    cases hb : s.ready with
    | false =>
      rw [step, fetch_of_quiet hq (hr.trans hb)] at h
      obtain ⟨t, ht, hft⟩ := follows_engine hf h
      exact ⟨t, (step_of_waiting_command hb hi).trans ht, .inl hft⟩
    | true =>
      rw [hi, commandsOf] at hws
      obtain ⟨v, vs, rfl, hv, hvs⟩ := List.map_eq_cons_iff.mp hws
      have hb' : State.ready { c with inputs := vs.map .command } = true := hr.trans hb
      rw [step_of_command (hr.trans hb) (show c.inputs = .command v :: vs.map .command by rw [hc]; rfl),
        hv] at h
      obtain ⟨hinputs, hreads⟩ := exec_command_keeps_host hb' h
      have ht := exec_command_with_host hb' h rest s.reads
      subst hc
      rw [hi] at hall
      exact ⟨_, (step_of_command hb hi).trans ht,
        .inl ⟨hall, vs, rs, hvs, (with_host_self hinputs hreads).symm⟩⟩
  | .reset :: rest => simp [hi, HostInput.isCommandReadOrIdle] at hall
  | .poll p :: rest => simp [hi, HostInput.isCommandReadOrIdle] at hall

end

/-! ## Runs of the two hosts -/

/-- A READY engine lets reads and idle steps pass. -/
theorem run_reads_and_idles {l : List HostInput} (hall : l.all HostInput.isCommandReadOrIdle = true)
    (hl : commandsOf l = []) {s : State} (hr : s.ready = true) (hi : s.inputs = l) :
    ∃ rs, run l.length s = .next { s with inputs := [], reads := rs } := by
  induction l generalizing s with
  | nil => exact ⟨s.reads, congrArg _ (with_inputs_self hi).symm⟩
  | cons a l ih =>
    cases a with
    | idle =>
      obtain ⟨rs, hrun⟩ := ih hall hl (s := { s with inputs := l }) hr rfl
      exact ⟨rs, (run_succ (step_of_ready_idle hr hi) _).trans hrun⟩
    | read sel =>
      obtain ⟨rs, hrun⟩ := ih hall hl (s := State.hostRead { s with inputs := l } sel) hr rfl
      exact ⟨rs, (run_succ (step_of_read hi) _).trans hrun⟩
    | command w => cases hl
    | reset | poll => cases hall

theorem step_of_run_succ {s u : State} {n : Nat} (h : run (n + 1) s = .next u) :
    ∃ t, step s = .next t ∧ run n t = .next u := by
  cases hstep : step s with
  | next t => exact ⟨t, rfl, run_succ hstep n ▸ h⟩
  | fault f => rw [run, hstep] at h; cases h
  | refused r => rw [run, hstep] at h; cases h

/-- Where the host that presents only commands comes to READY with all of them accepted, so does the other. -/
theorem run_follows {s c u : State} {n : Nat} (hf : s.Follows c) (hrun : run n c = .next u)
    (hr : u.ready = true) (hu : u.inputs = []) :
    ∃ k rs, run k s = .next { u with reads := rs } := by
  induction n generalizing s c with
  | zero =>
    obtain rfl := Host.Outcome.next.inj hrun
    obtain ⟨hall, ws, rs, hws, rfl⟩ := hf
    obtain rfl : ws = [] := List.map_eq_nil_iff.mp hu
    obtain ⟨rs', hend⟩ := run_reads_and_idles (s := s) hall (List.map_eq_nil_iff.mp hws.symm) hr rfl
    exact ⟨_, rs', hend⟩
  | succ n ih =>
    induction hlen : s.inputs.length using Nat.strong_induction_on generalizing s with
    | _ len ihlen =>
      obtain ⟨c', hstep, hrest⟩ := step_of_run_succ hrun
      obtain ⟨t, ht, hft | ⟨hft, hlt⟩⟩ := follows_step hf hstep
      · obtain ⟨k, rs, hk⟩ := ih hft hrest
        exact ⟨k + 1, rs, (run_succ ht k).trans hk⟩
      · obtain ⟨k, rs, hk⟩ := ihlen _ (hlen ▸ hlt) hft rfl
        exact ⟨k + 1, rs, (run_succ ht k).trans hk⟩

/-- A run that stops nowhere has stopped nowhere before. -/
theorem run_of_run_add {s u : State} {m n : Nat} (h : run (m + n) s = .next u) : ∃ t, run m s = .next t := by
  induction m generalizing s with
  | zero => exact ⟨s, rfl⟩
  | succ m ih =>
    rw [Nat.add_right_comm] at h
    obtain ⟨t, hstep, hrest⟩ := step_of_run_succ h
    exact run_succ hstep m ▸ ih hrest

/-- A run that ends where nothing more happens never stops. -/
theorem run_total_of_ready_nil {s t : State} {k : Nat} (h : run k s = .next t) (hr : t.ready = true)
    (hi : t.inputs = []) (n : Nat) : ∃ u, run n s = .next u := by
  rcases Nat.le_total n k with hle | hle
  · obtain ⟨d, rfl⟩ := Nat.exists_eq_add_of_le hle
    exact run_of_run_add h
  · obtain ⟨d, rfl⟩ := Nat.exists_eq_add_of_le hle
    exact ⟨t, (run_add h d).trans (run_of_ready_nil hr hi d)⟩

/-! ## Every conforming run (rule R91) -/

/-- The command words of a message's bytes and FINAL. -/
def messageWords (m : List Byte) : List CmdWord := m.map (commandWord · 0x02) ++ [0x0003]

theorem map_command_messageWords (m : List Byte) :
    (messageWords m).map .command = wrsInputs m ++ [.command 0x0003] := by
  simp [messageWords, wrsInputs]

theorem map_decodeCommand_messageWords (m : List Byte) :
    (messageWords m).map decodeCommand = m.map .wrb ++ [.final] := by
  have hwrb (d : Byte) : decodeCommand (commandWord d 0x02) = .wrb d := by
    rw [decodeCommand_wrb (opField_commandWord d 0x02), dataField_commandWord]
  simp only [messageWords, List.map_append, List.map_map, Function.comp_def, hwrb]
  rfl

/-- A run that follows one to DONE with the hash never stops and comes to it too. -/
theorem run_follows_doneWith {s c u : State} {m : List Byte} {n : Nat} (hf : s.Follows c)
    (hrun : run n c = .next u) (hdone : u.DoneWith m) (hi : u.inputs = []) :
    (∀ n, ∃ t, run n s = .next t) ∧
      ∃ n t, run n s = .next t ∧ t.inputs = [] ∧ t.DoneWith m ∧ t.faulted = u.faulted := by
  have hr : u.ready = true := (ready_iff u).mpr (.inr hdone.1)
  obtain ⟨k, rs, hk⟩ := run_follows hf hrun hr hi
  exact ⟨run_total_of_ready_nil hk hr hi, k, _, hk, hi, hdone, rfl⟩

section
variable {m : List Byte} {s : State} (hlen : m.length < 2 ^ 61)
  (hall : s.inputs.all HostInput.isCommandReadOrIdle = true)
include hlen hall

/-- From any READY state. -/
theorem run_conforming_from_ready (hr : s.ready = true)
    (hcommands : (commandsOf s.inputs).map decodeCommand = .init :: (m.map .wrb ++ [.final])) :
    (∀ n, ∃ t, run n s = .next t) ∧
      ∃ n t, run n s = .next t ∧ t.inputs = [] ∧ t.DoneWith m ∧ t.faulted = s.faulted := by
  obtain ⟨u, hrun, hdone, hi, hfaulted⟩ :=
    run_messageInputs (s := { s with inputs := messageInputs m }) hlen hr rfl
  have hwords : (0x0001 :: messageWords m).map decodeCommand = (commandsOf s.inputs).map decodeCommand := by
    rw [hcommands, List.map_cons, map_decodeCommand_messageWords, decodeCommand_init (by decide)]
  have hinputs : (0x0001 :: messageWords m).map .command = messageInputs m := by
    rw [List.map_cons, map_command_messageWords, messageInputs]
  have hf : s.Follows { s with inputs := messageInputs m } :=
    ⟨hall, 0x0001 :: messageWords m, s.reads, hwords, by rw [hinputs]⟩
  exact hfaulted ▸ run_follows_doneWith hf hrun hdone hi

/-- From reset, without the INIT. -/
theorem run_conforming_from_reset (hreset : s = { State.reset with inputs := s.inputs })
    (hcommands : (commandsOf s.inputs).map decodeCommand = m.map .wrb ++ [.final]) :
    (∀ n, ∃ t, run n s = .next t) ∧
      ∃ n t, run n s = .next t ∧ t.inputs = [] ∧ t.DoneWith m ∧ t.faulted = s.faulted := by
  obtain ⟨u, hrun, hdone, hi, hfaulted⟩ := run_message_from_reset hlen
  have hstart : ({ State.reset with inputs := wrsInputs m ++ [.command 0x0003] } : State) =
      { s with inputs := wrsInputs m ++ [.command 0x0003], reads := [] } := by
    rw [hreset]
    rfl
  have hf : s.Follows { State.reset with inputs := wrsInputs m ++ [.command 0x0003] } :=
    ⟨hall, messageWords m, [], by rw [hcommands, map_decodeCommand_messageWords],
      by rw [map_command_messageWords, hstart]⟩
  have hzero : s.faulted = false := by rw [hreset]; rfl
  exact (hfaulted.trans hzero.symm) ▸ run_follows_doneWith hf hrun hdone hi

end

/-- DONE and the Hash State stay until the next INIT or reset (rule R91). -/
theorem done_stays {s t : State} (hp : s.phase = Phase.done.code) (h : step s = .next t)
    (hreset : ∀ rest, s.inputs ≠ .reset :: rest)
    (hinit : ∀ w rest, s.inputs = .command w :: rest → opField w ≠ 0x01) :
    t.phase = Phase.done.code ∧ t.h = s.h := by
  rcases step_next h with ⟨rest, hi, -⟩ | ⟨w, rest, hi, hr, h⟩ | ⟨sel, rest, rfl⟩ | ⟨rest, -, rfl⟩ |
    ⟨i, rest, hd, -⟩
  · exact absurd hi (hreset rest)
  · rcases exec_command_next (s := { s with inputs := rest }) hr h with ⟨-, rfl⟩ | ⟨hw, -⟩ |
      ⟨-, ⟨-, rfl⟩ | ⟨hidle, -⟩ | ⟨hidle, -⟩⟩ | ⟨-, ⟨-, rfl⟩ | ⟨hidle, -⟩⟩ | ⟨-, rfl⟩
    · exact ⟨hp, rfl⟩
    · exact absurd hw (hinit w rest hi)
    · exact ⟨hp, rfl⟩
    · simp [hp] at hidle
    · simp [hp] at hidle
    · exact ⟨hp, rfl⟩
    · simp [hp] at hidle
    · exact ⟨hp, rfl⟩
  · exact ⟨hp, rfl⟩
  · exact ⟨hp, rfl⟩
  · rw [hp] at hd
    cases hd

/-- Settles O53: the run follows the one whose host presents nothing but the commands, each as soon as the last is
accepted. -/
theorem everyConformingRunHashesTheMessage : Obligations.EveryConformingRunHashesTheMessage := by
  refine ⟨fun m s hlen hall hs => ?_, fun s t => done_stays⟩
  have hconforming : (∀ n, ∃ t, run n s = .next t) ∧
      ∃ n t, run n s = .next t ∧ t.inputs = [] ∧ t.DoneWith m ∧ t.faulted = s.faulted := by
    rcases hs with ⟨hp, hcommands⟩ | ⟨hreset, hcommands⟩
    · exact run_conforming_from_ready hlen hall ((ready_iff s).mpr hp) hcommands
    · exact run_conforming_from_reset hlen hall hreset hcommands
  obtain ⟨htotal, n, t, hrun, hi, ⟨hp, hop, hseq, herrLen, hmlen, hh, hdigest⟩, hfaulted⟩ := hconforming
  exact ⟨htotal, n, t, hrun, hi, hp, hop, hseq, herrLen, hfaulted, hmlen, hh, hdigest⟩

end Sys2Proof.Machine
end

section
/-! The host's commands and its read: what each does where it is accepted, what it leaves unchanged, and the
word of each selector (rules R95 to R101). -/

namespace Sys2Proof.Machine

/-! ## What the commands leave unchanged -/

/-- An accepted byte is stored at its own place only (rule R98). -/
theorem getElem_appendByte_of_ne {s : State} {d : Byte} {n k : Nat} (hn : n < 64) (hk : k < 64)
    (hne : k ≠ n) : (s.appendByte d n hn).buf[k] = s.buf[k] :=
  Vector.getElem_set_ne hn hk hne.symm

/-- Settles O33: each command's lemma lists the next states it can answer, and the lemmas on the named
updates say what each of these keeps. -/
theorem commandFrame : Obligations.CommandFrame := by
  intro s t i hi h
  rcases hi with rfl | rfl | ⟨d, rfl⟩ | rfl | ⟨w, rfl⟩
  case inl =>
    obtain rfl := execNop_next h
    simp
  case inr.inl =>
    rcases execInit_next h with ⟨-, rfl⟩ | ⟨-, rfl⟩
    all_goals simp
  case inr.inr.inl =>
    rcases execWrb_next h with ⟨-, rfl⟩ | ⟨-, rfl⟩ | ⟨-, -, rfl⟩ | ⟨-, -, hn, rfl⟩
    · simp
    · simp
    · simp
    · have hbuf (k : Nat) (hk : k < 64) := getElem_appendByte_of_ne (s := s) (d := d) hn hk
      simpa using hbuf
  case inr.inr.inr.inl =>
    rcases execFinal_next h with ⟨-, rfl⟩ | ⟨-, rfl⟩ | ⟨-, rfl⟩
    all_goals simp
  case inr.inr.inr.inr =>
    rcases execIllegal_next (w := w) h with ⟨-, rfl⟩ | ⟨-, rfl⟩
    all_goals simp

/-! ## The commands where they are accepted (rules R96 to R100) -/

theorem ready_of_idle {s : State} (hp : s.phase = Phase.idle.code) : s.ready = true :=
  (ready_iff s).mpr (.inl hp)

theorem ready_of_done {s : State} (hp : s.phase = Phase.done.code) : s.ready = true :=
  (ready_iff s).mpr (.inr hp)

theorem decodeCommand_commandWord_wrb (d : Byte) : decodeCommand (commandWord d 0x02) = .wrb d := by
  rw [decodeCommand_wrb (opField_commandWord d 0x02), dataField_commandWord]

theorem execWrb_of_done {s : State} (d : Byte) (hp : s.phase = Phase.done.code) :
    exec (.wrb d) s = .next (s.raise .seq) := by
  rw [exec, execWrb, accept_of_ready (ready_of_done hp), if_pos hp]

theorem execWrb_of_limit {s : State} (d : Byte) (hp : s.phase = Phase.idle.code)
    (hmax : s.mlen = maxMlen) : exec (.wrb d) s = .next (s.raise .len) := by
  rw [exec, execWrb, accept_of_ready (ready_of_idle hp), if_neg (by simp [hp]), if_pos hmax]

theorem execFinal_of_done {s : State} (hp : s.phase = Phase.done.code) :
    exec .final s = .next (s.raise .seq) := by
  rw [exec, execFinal, accept_of_ready (ready_of_done hp), if_pos hp]

theorem execFinal_of_idle {s : State} (hp : s.phase = Phase.idle.code) :
    exec .final s = .next { s with fin := true, phase := Phase.pad.code } := by
  rw [exec, execFinal, accept_of_ready (ready_of_idle hp), if_neg (by simp [hp])]

/-- Settles O12: the handshake accepts NOP, whose effect is the state itself. -/
theorem nopChangesNothing : Obligations.NopChangesNothing :=
  ⟨fun d => decodeCommand_nop (opField_commandWord d 0x00),
    fun s hp => accept_of_ready ((ready_iff s).mpr hp) (.next s)⟩

/-- Settles O13: the handshake accepts INIT, whose effect is `State.startHash`. -/
theorem initStartsANewHash : Obligations.InitStartsANewHash :=
  ⟨fun d => decodeCommand_init (opField_commandWord d 0x01),
    fun s hp => execInit_of_ready ((ready_iff s).mpr hp)⟩

/-- Settles O14: one lemma for each of WRB's three branches; the limit is `maxMlen`. -/
theorem wrbAppendsAByte : Obligations.WrbAppendsAByte := by
  refine ⟨decodeCommand_commandWord_wrb, fun s d => execWrb_of_done d, fun s d hp hmlen => ?limit,
    fun s d hp hmlen hn => ?append⟩
  case limit => exact execWrb_of_limit d hp ((eq_maxMlen_iff s.mlen).mpr hmlen)
  case append =>
    have hmax : s.mlen ≠ maxMlen := fun hmax => by
      rw [eq_maxMlen_iff] at hmax
      omega
    rw [execWrb_appends d hp hmax hn rfl, State.appendByte, hp]

/-- Settles O15: FINAL's branch in DONE and the one in IDLE. -/
theorem finalStartsThePadding : Obligations.FinalStartsThePadding :=
  ⟨fun d => decodeCommand_final (opField_commandWord d 0x03), fun _ => execFinal_of_done,
    fun _ => execFinal_of_idle⟩

/-- Settles O16: the handshake accepts the illegal command, whose effect is to raise ERR_OP. -/
theorem illegalCommandSetsErrOp : Obligations.IllegalCommandSetsErrOp := fun s _ hp hw =>
  ⟨decodeCommand_illegal hw, accept_of_ready ((ready_iff s).mpr hp) (.next (s.raise .op))⟩

/-! ## The read map (rules R42, R101) -/

theorem readMap_of_lt (s : State) {sel : ReadSel} (hsel : sel.toNat < 8) :
    s.readMap sel = s.h[sel.toNat] :=
  dif_pos hsel

theorem toNat_readMap_mlen_low (s : State) : (s.readMap 9).toNat = s.mlen.toNat % 2 ^ 32 :=
  BitVec.extractLsb'_toNat ..

/-- The 29 bits above the low 32 are all that is left of the 61. -/
theorem toNat_readMap_mlen_high (s : State) : (s.readMap 10).toNat = s.mlen.toNat / 2 ^ 32 := by
  have hword : s.readMap 10 = (s.mlen.extractLsb' 32 29).setWidth 32 := rfl
  have hlt := s.mlen.isLt
  rw [hword, BitVec.toNat_setWidth, BitVec.extractLsb'_toNat, Nat.shiftRight_eq_div_pow]
  omega

theorem readMap_of_ge (s : State) {sel : ReadSel} (hsel : 11 ≤ sel.toNat) : s.readMap sel = 0x00000000 := by
  have hne (k : ReadSel) (hk : k.toNat < 11) : sel ≠ k := fun heq => by
    rw [heq] at hsel
    omega
  rw [State.readMap, dif_neg (by omega), if_neg (hne 8 (by decide)), if_neg (hne 9 (by decide)),
    if_neg (hne 10 (by decide))]

/-- Settles O17: the host's record takes the word of the read map, which has one lemma for each range of
selectors. -/
theorem readReturnsTheReadMap : Obligations.ReadReturnsTheReadMap := by
  intro s sel
  have hsel (k : ReadSel) (heq : sel.toNat = k.toNat) : sel = k := BitVec.eq_of_toNat_eq heq
  refine ⟨s.readMap sel, rfl, readMap_of_lt s, fun h8 => ?_, fun h9 => ?_, fun h10 => ?_, readMap_of_ge s⟩
  · rw [hsel 8 h8, readMap_status]
  · rw [hsel 9 h9, toNat_readMap_mlen_low]
  · rw [hsel 10 h10, toNat_readMap_mlen_high]

end Sys2Proof.Machine
end

section
/-! The error conditions of rule R104: a command that meets one sets its flag and the fault record and
nothing else, and no other step sets either (rules R102 to R105, R110). -/

namespace Sys2Proof.Machine

/-! ## A command in error (rules R103 to R105) -/

/-- The condition under which an accepted command raises a flag (rule R104). -/
def State.MeetsError (s : State) (w : CmdWord) : ErrFlag → Prop
  | .op => (s.phase = Phase.idle.code ∨ s.phase = Phase.done.code) ∧ 4 ≤ (opField w).toNat
  | .seq => s.phase = Phase.done.code ∧ (opField w = 0x02 ∨ opField w = 0x03)
  | .len => s.phase = Phase.idle.code ∧ opField w = 0x02 ∧ s.mlen.toNat = 2 ^ 61 - 1

/-- The error flag of a condition (rule R24). -/
def State.flag (s : State) : ErrFlag → Bool
  | .op => s.errOp
  | .seq => s.errSeq
  | .len => s.errLen

theorem flag_raise (s : State) (e e' : ErrFlag) : (s.raise e).flag e' = (s.flag e' || decide (e = e')) := by
  cases e' with
  | op => exact State.raise_errOp s e
  | seq => exact State.raise_errSeq s e
  | len => exact State.raise_errLen s e

theorem flag_startHash (s : State) (e : ErrFlag) : s.startHash.flag e = false := by
  cases e <;> rfl

theorem exists_flag_iff (s : State) :
    (∃ e, s.flag e = true) ↔ s.errOp = true ∨ s.errSeq = true ∨ s.errLen = true := by
  refine ⟨fun ⟨e, he⟩ => ?_, ?_⟩
  · cases e with
    | op => exact .inl he
    | seq => exact .inr (.inl he)
    | len => exact .inr (.inr he)
  · rintro (he | he | he)
    · exact ⟨.op, he⟩
    · exact ⟨.seq, he⟩
    · exact ⟨.len, he⟩

section
variable {s t : State} {w : CmdWord} {rest : List HostInput} {e : ErrFlag}

theorem ready_of_meetsError (he : s.MeetsError w e) : s.ready = true := by
  cases e with
  | op =>
    obtain ⟨hp, -⟩ := he
    exact (ready_iff s).mpr hp
  | seq =>
    obtain ⟨hp, -⟩ := he
    exact ready_of_done hp
  | len =>
    obtain ⟨hp, -⟩ := he
    exact ready_of_idle hp

theorem exec_of_meetsError (he : s.MeetsError w e) : exec (decodeCommand w) s = .next (s.raise e) := by
  cases e with
  | op =>
    obtain ⟨hp, hw⟩ := he
    obtain ⟨hdecode, hexec⟩ := illegalCommandSetsErrOp s w hp hw
    exact hdecode ▸ hexec
  | seq =>
    obtain ⟨hp, hw | hw⟩ := he
    · exact decodeCommand_wrb hw ▸ execWrb_of_done _ hp
    · exact decodeCommand_final hw ▸ execFinal_of_done hp
  | len =>
    obtain ⟨hp, hw, hmlen⟩ := he
    exact decodeCommand_wrb hw ▸ execWrb_of_limit _ hp ((eq_maxMlen_iff s.mlen).mpr hmlen)

theorem step_of_meetsError (hi : s.inputs = .command w :: rest) (he : s.MeetsError w e) :
    step s = .next (State.raise { s with inputs := rest } e) :=
  (step_of_command (ready_of_meetsError he) hi).trans
    (exec_of_meetsError (s := { s with inputs := rest }) he)

/-! ## What a step does to the flags and the fault record (rules R102, R110) -/

/-- `t` has the error flags and the fault record of `s`. -/
def State.SameFlags (s t : State) : Prop := (∀ e, t.flag e = s.flag e) ∧ t.faulted = s.faulted

theorem sameFlags_of_eq (hop : t.errOp = s.errOp) (hseq : t.errSeq = s.errSeq) (hlen : t.errLen = s.errLen)
    (hfaulted : t.faulted = s.faulted) : s.SameFlags t :=
  ⟨fun | .op => hop | .seq => hseq | .len => hlen, hfaulted⟩

theorem sameFlags_micro {i : Instr} (hd : decodePhase s.phase = .ok i) (h : exec i s = .next t) :
    s.SameFlags t := by
  obtain ⟨hop, hseq, hlen, hfaulted⟩ := micro_keeps_flags hd h
  exact sameFlags_of_eq hop hseq hlen hfaulted

/-- An accepted command keeps the flags, clears them as INIT, or meets an error condition. -/
theorem flags_of_command (hr : s.ready = true) (h : exec (decodeCommand w) s = .next t) :
    s.SameFlags t ∨ s.startHash.SameFlags t ∨ ∃ e, s.MeetsError w e ∧ t = s.raise e := by
  rcases exec_command_next hr h with ⟨-, rfl⟩ | ⟨-, rfl⟩ | ⟨hw, hwrb⟩ | ⟨hw, hfinal⟩ | ⟨hw, rfl⟩
  · exact .inl (sameFlags_of_eq rfl rfl rfl rfl)
  · exact .inr (.inl (sameFlags_of_eq rfl rfl rfl rfl))
  · rcases hwrb with ⟨hp, rfl⟩ | ⟨hp, hmax, rfl⟩ | ⟨-, -, hn, rfl⟩
    · exact .inr (.inr ⟨.seq, ⟨hp, .inl hw⟩, rfl⟩)
    · exact .inr (.inr ⟨.len, ⟨hp, hw, (eq_maxMlen_iff s.mlen).mp hmax⟩, rfl⟩)
    · exact .inl (sameFlags_of_eq rfl rfl rfl rfl)
  · rcases hfinal with ⟨hp, rfl⟩ | ⟨-, rfl⟩
    · exact .inr (.inr ⟨.seq, ⟨hp, .inr hw⟩, rfl⟩)
    · exact .inl (sameFlags_of_eq rfl rfl rfl rfl)
  · exact .inr (.inr ⟨.op, ⟨(ready_iff s).mp hr, hw⟩, rfl⟩)

/-- A reset step clears what INIT clears, and only a command in error sets anything. -/
theorem flags_of_step (h : step s = .next t) :
    s.SameFlags t ∨ s.startHash.SameFlags t ∨
      ∃ e w rest, s.inputs = .command w :: rest ∧ s.MeetsError w e ∧ (s.raise e).SameFlags t := by
  rcases step_next h with ⟨rest, -, rfl⟩ | ⟨w, rest, hi, hr, h⟩ | ⟨sel, rest, rfl⟩ | ⟨rest, -, rfl⟩ |
    ⟨i, rest, hd, h⟩
  · exact .inr (.inl (sameFlags_of_eq rfl rfl rfl rfl))
  · rcases flags_of_command (s := { s with inputs := rest }) hr h with hsame | hclear | ⟨e, he, rfl⟩
    · exact .inl hsame
    · exact .inr (.inl hclear)
    · exact .inr (.inr ⟨e, w, rest, hi, he, by cases e <;> exact sameFlags_of_eq rfl rfl rfl rfl⟩)
  · exact .inl (sameFlags_of_eq rfl rfl rfl rfl)
  · exact .inl (sameFlags_of_eq rfl rfl rfl rfl)
  · exact .inl (sameFlags_micro (s := { s with inputs := rest }) hd h)

theorem flag_of_meetsError (h : step s = .next t) :
    (∃ w rest, s.inputs = .command w :: rest ∧ s.MeetsError w e) → t.flag e = true := by
  rintro ⟨w, rest, hi, he⟩
  obtain rfl := Host.Outcome.next.inj (h.symm.trans (step_of_meetsError hi he))
  simp [flag_raise]

theorem meetsError_of_flag (h : step s = .next t) (hs : s.flag e = false) (ht : t.flag e = true) :
    ∃ w rest, s.inputs = .command w :: rest ∧ s.MeetsError w e := by
  rcases flags_of_step h with ⟨hflag, -⟩ | ⟨hflag, -⟩ | ⟨e', w, rest, hi, he, hflag, -⟩
  · simp [hflag, hs] at ht
  · simp [hflag, flag_startHash] at ht
  · have heq : e' = e := by simpa [hflag, flag_raise, hs] using ht
    exact ⟨w, rest, hi, heq ▸ he⟩

end

/-- Settles O37: rule R31's table keeps PAD and SCHED in range, and no micro-operation writes a flag. -/
theorem microOperationsRaiseNoError : Obligations.MicroOperationsRaiseNoError := by
  intro s i hs hd
  obtain ⟨t, h, -⟩ := countsDown_micro hd (engineOk_of_inv hs)
  exact ⟨t, h, micro_keeps_flags hd h⟩

/-- Settles O38: each flag from its condition and back, and its STATUS bit. -/
theorem errorConditions : Obligations.ErrorConditions := by
  intro s t h
  obtain ⟨-, -, hop, hseq, hlen, -⟩ := statusFields t
  exact ⟨flag_of_meetsError (e := .op) h, meetsError_of_flag (e := .op) h,
    flag_of_meetsError (e := .seq) h, meetsError_of_flag (e := .seq) h,
    flag_of_meetsError (e := .len) h, meetsError_of_flag (e := .len) h, hop, hseq, hlen⟩

/-- Settles O41: INIT and reset clear flags and keep the record, and a raised flag sets it. -/
theorem faultRecordIsNeverCleared : Obligations.FaultRecordIsNeverCleared := by
  intro s t h
  simp only [State.FaultsRecorded, ← exists_flag_iff]
  rcases flags_of_step h with ⟨hflag, hfaulted⟩ | ⟨hflag, hfaulted⟩ | ⟨e, -, -, -, -, hflag, hfaulted⟩
  · simp only [hflag, hfaulted]
    exact ⟨id, id, .inl⟩
  · simp only [hflag, hfaulted, flag_startHash, State.startHash_faulted]
    exact ⟨id, fun _ => nofun, .inl⟩
  · have hset : t.flag e = true := by simp [hflag, flag_raise]
    rw [State.raise_faulted] at hfaulted
    exact ⟨fun _ => hfaulted, fun _ _ => hfaulted, fun _ => .inr ⟨e, hset⟩⟩

/-- Settles O39: the three conditions of the table, each with its whole next state. -/
theorem raisingAFlagChangesNothingElse : Obligations.RaisingAFlagChangesNothingElse :=
  fun _ _ _ hi => ⟨fun hp hw => step_of_meetsError (e := .op) hi ⟨hp, hw⟩,
    fun hp hw => step_of_meetsError (e := .seq) hi ⟨hp, hw⟩,
    fun hp hw hmlen => step_of_meetsError (e := .len) hi ⟨hp, hw, hmlen⟩⟩

end Sys2Proof.Machine
end

section
/-! The reset step and INIT (rules R97, R117): both start a hash, and they differ in hidden registers
only, which are dead there, so no run tells them apart (rule R118). -/

namespace Sys2Proof.Machine

/-- The step in which a READY engine accepts INIT (rule R97). -/
theorem step_of_init {s : State} {rest : List HostInput} (hr : s.ready = true)
    (hi : s.inputs = .command 0x0001 :: rest) :
    step s = .next (State.startHash { s with inputs := rest }) := by
  rw [step_of_command hr hi, decodeCommand_init (by decide)]
  exact execInit_of_ready (s := { s with inputs := rest }) hr

/-- Reset and INIT differ in `V`, `W` and `BUF` at most, and with NBUF at 0 none of these is live in IDLE. -/
theorem liveEq_resetStep_startHash (s : State) : s.resetStep.LiveEq s.startHash :=
  (liveEq_filling (s := s.resetStep) (v := s.v) (w := s.w) (buf := s.buf) (.inl rfl)).mpr
    fun _ _ hk => absurd hk (Nat.not_lt_zero _)

/-- A run keeps the agreement of every step (rule R89). -/
theorem State.LiveEq.run_next {s t a : State} {n : Nat} (hl : s.LiveEq t) (h : run n s = .next a) :
    ∃ b, run n t = .next b ∧ a.LiveEq b := by
  induction n generalizing s t with
  | zero =>
    obtain rfl := Host.Outcome.next.inj h
    exact ⟨t, rfl, hl⟩
  | succ n ih =>
    obtain ⟨s', hs, hrest⟩ := step_of_run_succ h
    obtain ⟨t', ht, hl'⟩ := (hs ▸ alike_step hl).of_next
    rw [run_succ ht]
    exact ih hl' hrest

/-- Settles O10: the reset step takes every register from the reset state, and `rst` holds `cmd_ready` at 0. -/
theorem resetStepGivesTheResetState : Obligations.ResetStepGivesTheResetState := by
  intro s rest hi
  have hrst : s.rst = true := by rw [State.rst, hi]
  obtain ⟨hh, -, hnbuf, hmlen, hphase, hidx, hfin, hlenpend, hop, hseq, hlen, -⟩ := resetValues
  exact ⟨by rw [State.cmdReady, hrst, Bool.not_true, Bool.false_and], _, step_of_reset hi,
    hh, hnbuf, hmlen, hphase, hidx, hfin, hlenpend, hop, hseq, hlen, rfl, rfl⟩

/-- Settles O58: after the first step the two states differ in dead values only, and so does what
every run makes of them. -/
theorem resetAndInitAreObservedAlike : Obligations.ResetAndInitAreObservedAlike := by
  intro s a rest n hp hrun
  have hreset := step_of_reset (s := { s with inputs := .reset :: rest }) rfl
  have hinit := step_of_init (s := { s with inputs := .command 0x0001 :: rest }) ((ready_iff s).mpr hp) rfl
  rw [run_succ hreset] at hrun
  obtain ⟨b, hb, hl⟩ := (liveEq_resetStep_startHash { s with inputs := rest }).run_next hrun
  exact ⟨b, (run_succ hinit n).trans hb, hl.reads, hl.h, hl.nbuf, hl.mlen, hl.phase, hl.idx, hl.fin,
    hl.lenpend, hl.errOp, hl.errSeq, hl.errLen⟩

end Sys2Proof.Machine
end
